-- ==== Sys2Proof/Word.lean ====
section
/-! DEFINITION. The widths of the Blue CORE (spec/00_scope.md R6): 16-bit words, 12-bit addresses, 4-bit opcodes, 8-bit
I/O bytes. Bit 15 of a word is its most significant bit (R9). -/

namespace Sys2Proof

/-- A register or a memory word (R6, `WORD_BITS`). -/
abbrev Word := BitVec 16

/-- An effective memory address (R6, `ADDR_BITS`). -/
abbrev Addr := BitVec 12

/-- An I/O transfer (R6, `IO_BYTE_BITS`). -/
abbrev Byte := BitVec 8

end Sys2Proof
end

