-- ==== Sys2Proof/Config.lean ====
section
/-! DEFINITION. The fixed parameters of spec/00_scope.md R6 and the debug configuration of spec/10_state.md R28. The spec
leaves no engine parameter open, so there is no opaque constant here. -/

namespace Sys2Proof.Config

/-- The identity string of the hardware (R1). -/
def identity : String := "Blue-CORE"

/-- `MEM_WORDS` (R6, R33). -/
def memWords : Nat := 4096

/-- `PULSES_PER_PHASE` (R6, R61). -/
def pulsesPerPhase : Nat := 8

/-- `MAX_PROGRAM_WORDS` (R6, R82). -/
def maxProgramWords : Nat := 4096

/-- What a word that no write has reached reads as (R33, R41). -/
def unwrittenWord : Word := 0#16

/-- The debug settings passed to `Construct` (R28). No rule of the CORE reads them. -/
structure DebugConfig where
  enabled : Bool
  printRegisters : Bool
  manualInput : Bool
  deriving DecidableEq, Repr

end Sys2Proof.Config
end

