-- ==== Sys2Proof/Syntax.lean ====
section
/-! DEFINITION. The closed set of 16 instructions (spec/30_encoding.md R53, R56). Every one carries the 12-bit address
field of its word (R49), the five that ignore it too (R55), so that an instruction and its word determine each other. -/

namespace Sys2Proof

/-- One constructor per row of spec/opcode_table.json, in the order of the opcodes. `a` is `IR[11:0]`. -/
inductive Instr where
  /-- 0: halt (R102); `a` ignored. -/
  | hlt (a : Addr)
  /-- 1: add `RAM[a]` to A (R91). -/
  | add (a : Addr)
  /-- 2: exclusive-or `RAM[a]` into A (R92). -/
  | xor (a : Addr)
  /-- 3: and `RAM[a]` into A (R93). -/
  | and (a : Addr)
  /-- 4: inclusive-or `RAM[a]` into A (R94). -/
  | ior (a : Addr)
  /-- 5: complement A (R95); `a` ignored. -/
  | not (a : Addr)
  /-- 6: load A from `RAM[a]` (R99). -/
  | lda (a : Addr)
  /-- 7: store A to `RAM[a]` (R100). -/
  | sta (a : Addr)
  /-- 8: subroutine jump, return address to `RAM[a]` (R103). -/
  | srj (a : Addr)
  /-- 9: jump to `a` if A is negative (R105). -/
  | jma (a : Addr)
  /-- 10: jump to `a` (R106). -/
  | jmp (a : Addr)
  /-- 11: input from device `a` (R110). -/
  | inp (a : Addr)
  /-- 12: output to device `a` (R111). -/
  | out (a : Addr)
  /-- 13: rotate A left (R96); `a` ignored. -/
  | ral (a : Addr)
  /-- 14: copy the console switches to A (R97); `a` ignored. -/
  | csa (a : Addr)
  /-- 15: no operation (R107); `a` ignored. -/
  | nop (a : Addr)
  deriving DecidableEq, Repr

end Sys2Proof
end

