-- ==== Sys2Proof/WellFormed.lean ====
section
/-! DEFINITION. The mnemonics of spec/30_encoding.md R53, and which terms are well formed. Every `Instr` is: no word is
illegal and no field value reserved (R54, R55), and the field's type already bounds it. What can be ill formed is a line
of the spec's assembler form (R57), so the checks are on those. -/

namespace Sys2Proof

/-- The mnemonics of R53. -/
inductive Mnemonic where
  | HLT | ADD | XOR | AND | IOR | NOT | LDA | STA | SRJ | JMA | JMP | INP | OUT | RAL | CSA | NOP
  deriving DecidableEq, Repr

/-- The mnemonic of an instruction (R53). -/
def Instr.mnemonic : Instr → Mnemonic
  | .hlt _ => .HLT
  | .add _ => .ADD
  | .xor _ => .XOR
  | .and _ => .AND
  | .ior _ => .IOR
  | .not _ => .NOT
  | .lda _ => .LDA
  | .sta _ => .STA
  | .srj _ => .SRJ
  | .jma _ => .JMA
  | .jmp _ => .JMP
  | .inp _ => .INP
  | .out _ => .OUT
  | .ral _ => .RAL
  | .csa _ => .CSA
  | .nop _ => .NOP

/-- The address field of an instruction (R49). -/
def Instr.field : Instr → Addr
  | .hlt a | .add a | .xor a | .and a | .ior a | .not a | .lda a | .sta a
  | .srj a | .jma a | .jmp a | .inp a | .out a | .ral a | .csa a | .nop a => a

/-- Every instruction is well formed, whatever its field (R54, R55). -/
def Instr.wellFormed : Instr → Bool
  | .hlt _ | .add _ | .xor _ | .and _ | .ior _ | .not _ | .lda _ | .sta _
  | .srj _ | .jma _ | .jmp _ | .inp _ | .out _ | .ral _ | .csa _ | .nop _ => true

/-- Does the assembler form of this mnemonic take an operand? "HLT, NOT, RAL, CSA and NOP take no operand" (R57). -/
def Mnemonic.takesOperand : Mnemonic → Bool
  | .HLT | .NOT | .RAL | .CSA | .NOP => false
  | .ADD | .XOR | .AND | .IOR | .LDA | .STA | .SRJ | .JMA | .JMP | .INP | .OUT => true

/-- What one line of R57's assembler form states: an instruction or a `.word` directive. -/
inductive SourceItem where
  | instr (m : Mnemonic) (operand : Option Nat)
  | word (v : Nat)
  deriving DecidableEq, Repr

/-- One line of R57's assembler form, less its comment: an optional `addr:` and what stands at that word. -/
structure SourceLine where
  addr : Option Nat
  item : SourceItem
  deriving DecidableEq, Repr

/-- The operand is there exactly if the mnemonic takes one, and is a 12-bit address; a `.word` holds 16 bits (R57). -/
def SourceItem.wellFormed : SourceItem → Bool
  | .instr m (some n) => m.takesOperand && decide (n < 4096)
  | .instr m none => !m.takesOperand
  | .word v => decide (v < 65536)

/-- A stated word address lies in memory (R57, R39), and the item is well formed. -/
def SourceLine.wellFormed (l : SourceLine) : Bool :=
  l.item.wellFormed && (match l.addr with
    | some n => decide (n < Config.memWords)
    | none => true)

end Sys2Proof
end

