-- ==== Sys2Proof/Decode.lean ====
section
/-! DEFINITION. The fields of a word, the decoder, the encoder and the assembler of spec/30_encoding.md. -/

namespace Sys2Proof

/-! ## Fields -/

/-- `w[15:12]`, the opcode (R49). -/
def opcodeField (w : Word) : BitVec 4 := w.extractLsb' 12 4

/-- `w[11:0]`, the address field (R49), and the part of any register that addresses memory (R15, R35). -/
def addressField (w : Word) : Addr := w.extractLsb' 0 12

/-- `zext_16(a)` (R10, R50). -/
def zext16 (a : Addr) : Word := a.setWidth 16

/-! ## Decoder -/

/-- The opcode map of R53: entry `n` is the mnemonic of opcode `n`. -/
def opcodeMap : Vector Mnemonic 16 :=
  #v[.HLT, .ADD, .XOR, .AND, .IOR, .NOT, .LDA, .STA, .SRJ, .JMA, .JMP, .INP, .OUT, .RAL, .CSA, .NOP]

/-- The instruction of a mnemonic with address field `a`. -/
def Mnemonic.instr (a : Addr) : Mnemonic → Instr
  | .HLT => .hlt a
  | .ADD => .add a
  | .XOR => .xor a
  | .AND => .and a
  | .IOR => .ior a
  | .NOT => .not a
  | .LDA => .lda a
  | .STA => .sta a
  | .SRJ => .srj a
  | .JMA => .jma a
  | .JMP => .jmp a
  | .INP => .inp a
  | .OUT => .out a
  | .RAL => .ral a
  | .CSA => .csa a
  | .NOP => .nop a

/-- The combinational decoder (R52): total, since every one of the 65536 words is an instruction (R54). -/
def decodeWord (w : Word) : Instr := (opcodeMap.get (opcodeField w).toFin).instr (addressField w)

/-- Why a sequence of words gives no instruction. -/
inductive DecodeError where
  /-- There is no word: an instruction is exactly one (R48). Raised by `decodeWords` alone, never by a step. -/
  | noWord
  deriving DecidableEq, Repr

/-- The instruction at the head of a sequence of words, with the words after it (R48, R56). -/
def decodeWords : List Word → Except DecodeError (Instr × List Word)
  | [] => .error .noWord
  | w :: rest => .ok (decodeWord w, rest)

/-- The instruction read from a word numbered as spec/opcode_table.json numbers its bits; the bits from `nbits` up are 0. -/
def decodeTableWord (nbits w : Nat) : Option Instr :=
  match decodeWords [BitVec.ofNat 16 (w % 2 ^ nbits)] with
  | .ok (i, _) => some i
  | .error _ => none

/-! ## Encoder -/

/-- `oooo aaaa aaaa aaaa` (R49). -/
def packWord (op : BitVec 4) (a : Addr) : Word := op ++ a

/-- The word of an instruction: the match column of R53, with the field in bits 11:0. -/
def encode : Instr → Word
  | .hlt a => packWord 0x0#4 a
  | .add a => packWord 0x1#4 a
  | .xor a => packWord 0x2#4 a
  | .and a => packWord 0x3#4 a
  | .ior a => packWord 0x4#4 a
  | .not a => packWord 0x5#4 a
  | .lda a => packWord 0x6#4 a
  | .sta a => packWord 0x7#4 a
  | .srj a => packWord 0x8#4 a
  | .jma a => packWord 0x9#4 a
  | .jmp a => packWord 0xA#4 a
  | .inp a => packWord 0xB#4 a
  | .out a => packWord 0xC#4 a
  | .ral a => packWord 0xD#4 a
  | .csa a => packWord 0xE#4 a
  | .nop a => packWord 0xF#4 a

/-! ## Assembler (R57) -/

/-- The word an item assembles to; an instruction without operand assembles with `a = 0`. -/
def assembleItem (x : SourceItem) : Option Word :=
  if x.wellFormed then
    match x with
    | .instr m operand => some (encode (m.instr (BitVec.ofNat 12 (operand.getD 0))))
    | .word v => some (BitVec.ofNat 16 v)
  else none

/-- The words from address `here` on. A line that states no address follows the line before it; the words that no line
states are 0x0000 (R57). An address that goes back is refused: DEDUCED, log 7. -/
def assembleFrom (here : Nat) : List SourceLine → Option (List Word)
  | [] => some []
  | l :: rest =>
    let start := l.addr.getD here
    if l.wellFormed = true ∧ here ≤ start then
      match assembleItem l.item, assembleFrom (start + 1) rest with
      | some w, some ws => some (List.replicate (start - here) 0#16 ++ w :: ws)
      | _, _ => none
    else none

/-- The words of a program, from address 0 (R57, R137). -/
def assemble (lines : List SourceLine) : Option (List Word) := assembleFrom 0 lines

end Sys2Proof
end

