-- ==== Sys2Proof/Machine/State.lean ====
section
/-! DEFINITION. The state of the engine, field by field as spec/10_state.md R29 lists it, the commands of its host
(spec/40_cycle_engine.md R71), and the state after `Construct` (spec/70_reset_and_hazards.md R135). -/

namespace Sys2Proof.Machine

/-- The ten registers (R12), in the order of their selectors 0 to 9. -/
inductive Reg where
  | pc | a | z | sr | mar | mbr | ir | dsl | dil | dol
  deriving DecidableEq, Repr

/-- The execution state (R18). -/
inductive Phase where
  | fetch | execute
  deriving DecidableEq, Repr

/-- The I/O transfer state (R20, R108). -/
inductive IoState where
  /-- No transfer is in progress. -/
  | idle
  /-- An INP transfer is in progress. -/
  | awaitIn
  /-- An OUT transfer is in progress. -/
  | awaitOut
  deriving DecidableEq, Repr

/-- The breakpoint bypass latch `bpskip` (R26, R129). -/
structure Bypass where
  valid : Bool
  addr : Addr
  deriving DecidableEq, Repr

/-- The words of RAM that differ from `Config.unwrittenWord`, as (address, word) pairs, addresses strictly rising and
below 4096 (R33). Memory is word-addressed and has no byte addresses (R38), so a cell holds a word: log 3. -/
abbrev Memory := List (Nat × Word)

/-- The host's commands (R71), with their arguments. A run of `runProgram` is bounded by a number of cycles: log 6. -/
inductive Command where
  | construct (cfg : Config.DebugConfig)
  | loadProgram (words : List Word)
  | stepPulse
  | runCycle
  | runProgram (cycles : Nat) (words : List Word)
  | readRegister (sel : Fin 16)
  | writeRegister (sel : Fin 16) (v : Word)
  | dumpMemory
  | setBreakpoint (addr : Nat)
  | clearBreakpoints
  | powerOff
  | completeInput (b : Byte)
  | completeOutput
  | resume
  | observe
  deriving DecidableEq, Repr

/-- The engine's fields (R29), and the commands its host has yet to issue (`hostQueue`, the model's own field: log 2). -/
@[ext]
structure State where
  /-- PC (R15). -/
  pc : Word
  /-- A, the accumulator. -/
  a : Word
  /-- Z, the ALU's scratch operand. -/
  z : Word
  /-- SR, the console switches (R16). -/
  sr : Word
  /-- MAR, the address latch. -/
  mar : Word
  /-- MBR, the memory data latch. -/
  mbr : Word
  /-- IR, the current instruction word. -/
  ir : Word
  /-- DSL, the device selector. -/
  dsl : Word
  /-- DIL, the device input latch. -/
  dil : Word
  /-- DOL, the device output latch. -/
  dol : Word
  /-- RAM (R33). -/
  ram : Memory
  /-- The execution state (R18). -/
  phase : Phase
  /-- The clock pulse counter (R19). -/
  pulse : Fin 8
  /-- Power (R23). -/
  power : Bool
  /-- BP, the breakpoint set (R25), as its addresses in strictly rising order: log 4. -/
  bp : List Addr
  /-- The I/O transfer state (R20). -/
  io : IoState
  /-- The I/O ready flag (R21). -/
  ready : Bool
  /-- Halted by HLT (R22). -/
  halted : Bool
  /-- OVF, the overflow latch (R24). -/
  ovf : Bool
  /-- The breakpoint bypass latch (R26). -/
  bpskip : Bypass
  /-- The host's commands not yet applied, the next one first: log 2. -/
  hostQueue : List Command
  deriving DecidableEq, Repr

/-- No step faults: the CORE raises no exceptions and has no trap mechanism (R116), and every word and every address is
valid (R39, R54). So there is no reason to name, and nobody raises one (safe). -/
inductive Fault where
  deriving DecidableEq, Repr

/-- Why an instruction has no meaning. -/
inductive Refusal where
  /-- An arm of `exec` that has no meaning yet, by its mnemonic. No arm answers it now (it would be safe). -/
  | notModelled (mnemonic : String)
  deriving DecidableEq, Repr

/-- The engine that `Construct` builds (R135, R29), with no host command waiting (log 2). -/
def State.reset : State where
  pc := 0x0000#16
  a := 0x0000#16
  z := 0x0000#16
  sr := 0x0000#16
  mar := 0x0000#16
  mbr := 0x0000#16
  ir := 0x0000#16
  dsl := 0x0000#16
  dil := 0x0000#16
  dol := 0x0000#16
  ram := []
  phase := .fetch
  pulse := 0
  power := true
  bp := []
  io := .idle
  ready := false
  halted := false
  ovf := false
  bpskip := { valid := false, addr := 0x000#12 }
  hostQueue := []

end Sys2Proof.Machine
end

