-- ==== Sys2Proof/Machine/Ops.lean ====
section
/-! DEFINITION. The named operations on the state: memory (spec/20_memory.md), the register file (spec/10_state.md R12 to
R14), the control fields, the sequencer's advance (spec/40_cycle_engine.md R60) and the breakpoint comparator
(spec/60_exceptions.md R128). The CORE takes no exception and returns from none (R121, R122), so there is no such operation. -/

namespace Sys2Proof.Machine

/-! ## Memory -/

/-- The word at key `n` (R33: a word no write has reached reads as 0x0000). -/
def Memory.lookup (n : Nat) : Memory → Word
  | [] => Config.unwrittenWord
  | (k, v) :: rest => if k = n then v else Memory.lookup n rest

/-- Put `v` at key `n`, keeping the keys rising and listing no word that is as if unwritten. -/
def Memory.put (n : Nat) (v : Word) : Memory → Memory
  | [] => if v = Config.unwrittenWord then [] else [(n, v)]
  | (k, w) :: rest =>
    if n < k then
      if v = Config.unwrittenWord then (k, w) :: rest else (n, v) :: (k, w) :: rest
    else if n = k then
      if v = Config.unwrittenWord then rest else (n, v) :: rest
    else (k, w) :: Memory.put n v rest

/-- `MemRead(a, 1)` (R11, R35). -/
def Memory.read (m : Memory) (a : Addr) : Word := Memory.lookup a.toNat m

/-- `MemWrite(a, 1, v)` (R11, R35). -/
def Memory.write (m : Memory) (a : Addr) (v : Word) : Memory := Memory.put a.toNat v m

/-- Write the words one after another from address `n` on (R82). -/
def Memory.load (n : Nat) : List Word → Memory → Memory
  | [], m => m
  | w :: ws, m => Memory.load (n + 1) ws (Memory.write m (BitVec.ofNat 12 n) w)

/-- The canonical form: addresses strictly rising and below 4096, and no entry that reads as if unwritten. -/
def Memory.wf (m : Memory) : Bool :=
  decide (m.Pairwise (fun x y => x.1 < y.1)) &&
    m.all (fun x => decide (x.1 < Config.memWords) && decide (x.2 ≠ Config.unwrittenWord))

/-! ## Registers -/

/-- The value of a register (R12). -/
def State.readReg (s : State) : Reg → Word
  | .pc => s.pc
  | .a => s.a
  | .z => s.z
  | .sr => s.sr
  | .mar => s.mar
  | .mbr => s.mbr
  | .ir => s.ir
  | .dsl => s.dsl
  | .dil => s.dil
  | .dol => s.dol

/-- Store all 16 bits of `v` in a register, and nothing else (R13, R14). -/
def State.writeReg (s : State) (r : Reg) (v : Word) : State :=
  match r with
  | .pc => { s with pc := v }
  | .a => { s with a := v }
  | .z => { s with z := v }
  | .sr => { s with sr := v }
  | .mar => { s with mar := v }
  | .mbr => { s with mbr := v }
  | .ir => { s with ir := v }
  | .dsl => { s with dsl := v }
  | .dil => { s with dil := v }
  | .dol => { s with dol := v }

/-- The register of a host selector; 10 to 15 name none (R12, R80). -/
def regOfSelector (sel : Fin 16) : Option Reg :=
  match sel with
  | 0 => some .pc
  | 1 => some .a
  | 2 => some .z
  | 3 => some .sr
  | 4 => some .mar
  | 5 => some .mbr
  | 6 => some .ir
  | 7 => some .dsl
  | 8 => some .dil
  | 9 => some .dol
  | _ => none

/-! ## Control fields -/

def State.setRam (s : State) (m : Memory) : State := { s with ram := m }
def State.setOvf (s : State) (b : Bool) : State := { s with ovf := b }
def State.setHalted (s : State) (b : Bool) : State := { s with halted := b }
def State.setPower (s : State) (b : Bool) : State := { s with power := b }
def State.setBypass (s : State) (l : Bypass) : State := { s with bpskip := l }
def State.setBreakpoints (s : State) (l : List Addr) : State := { s with bp := l }
def State.setHostQueue (s : State) (q : List Command) : State := { s with hostQueue := q }

/-- Move the I/O handshake: the transfer state and the ready flag together (R108). -/
def State.setHandshake (s : State) (io : IoState) (ready : Bool) : State := { s with io := io, ready := ready }

/-- Put the sequencer at a position (R59). -/
def State.setPosition (s : State) (ph : Phase) (p : Fin 8) : State := { s with phase := ph, pulse := p }

/-! ## Transfers through MAR and MBR -/

/-- `MAR <- zext_16(a)` (R50). -/
def State.latchAddress (s : State) (a : Addr) : State := s.writeReg .mar (zext16 a)

/-- `MBR <- RAM[MAR[11:0]]` (R35). -/
def State.readMemory (s : State) : State := s.writeReg .mbr (Memory.read s.ram (addressField s.mar))

/-- `RAM[MAR[11:0]] <- MBR` (R35). -/
def State.writeMemory (s : State) : State := s.setRam (Memory.write s.ram (addressField s.mar) s.mbr)

/-! ## Sequencer -/

/-- The other phase (R60). -/
def Phase.flip : Phase → Phase
  | .fetch => .execute
  | .execute => .fetch

/-- The position after a performed pulse (R60): the pulse counts modulo 8, and the phase flips on the wrap. -/
def State.advance (s : State) : State :=
  s.setPosition (if s.pulse = 7 then s.phase.flip else s.phase) (s.pulse + 1)

/-- May the sequencer perform a pulse, as far as power, HLT and the I/O hold go (R69 steps 1 and 3)? -/
def State.canPulse (s : State) : Bool := s.power && !s.halted && decide (s.io = .idle)

/-- A cycle boundary (spec/00_scope.md glossary): F0. -/
def State.atBoundary (s : State) : Bool := decide (s.phase = .fetch) && decide (s.pulse = 0)

/-- One performed pulse: the transfers of the cell for the current pulse, then the advance (R62, R69 steps 4 and 5). -/
def performPulse (cell : Fin 8 → State → State) (s : State) : State := (cell s.pulse s).advance

/-- Perform pulses of phase `ph`, at most `n` of them, while the sequencer is in that phase and nothing holds it. -/
def runPulses (ph : Phase) (cell : Fin 8 → State → State) : Nat → State → State
  | 0, s => s
  | n + 1, s => if s.phase = ph ∧ s.canPulse = true then runPulses ph cell n (performPulse cell s) else s

/-- The rest of the Execute phase, with the table row `cell` (R61, R67): the meaning of an instruction from wherever the
sequencer stands in its Execute phase, up to the end of E7 or an I/O hold (R109). -/
def runExecute (cell : Fin 8 → State → State) (s : State) : State :=
  runPulses .execute cell Config.pulsesPerPhase s

/-! ## Breakpoint comparator -/

/-- The effective bits of PC (R15). -/
def State.pcAddr (s : State) : Addr := addressField s.pc

/-- Does the comparator fire (R128)? Only at F0, and not for the address the bypass latch names. -/
def State.breakpointFires (s : State) : Bool :=
  s.atBoundary && decide (s.pcAddr ∈ s.bp) && !(s.bpskip.valid && decide (s.bpskip.addr = s.pcAddr))

/-- What a hit does: it sets the bypass latch (R128). -/
def State.hitBreakpoint (s : State) : State := s.setBypass { valid := true, addr := s.pcAddr }

/-- Add an address to the breakpoint set (R130). -/
def insertBreakpoint (x : Addr) : List Addr → List Addr
  | [] => [x]
  | b :: rest =>
    if x.toNat < b.toNat then x :: b :: rest
    else if x = b then b :: rest
    else b :: insertBreakpoint x rest

/-- The canonical form of a breakpoint set: strictly rising. -/
def breakpointsWf (l : List Addr) : Bool := decide (l.Pairwise (fun x y => x.toNat < y.toNat))

end Sys2Proof.Machine
end

