-- ==== Sys2Proof/Machine/Operands.lean ====
section
/-! DEFINITION. The four uses of the address field (spec/30_encoding.md R50, R51) and the parts of A that the I/O
instructions move (spec/44_io.md R111, R112). The only addressing mode is direct (spec/42_load_store.md). -/

namespace Sys2Proof.Machine

/-- Jump target: `zext_16(a)` (R51, R101). -/
def jumpTarget (a : Addr) : Word := zext16 a

/-- SRJ's target: `zext_16((a + 1) mod 4096)` (R50, R103). -/
def subroutineEntry (a : Addr) : Word := zext16 (a + 1#12)

/-- Device selector: `zext_16(a)` (R51, R114). -/
def deviceSelector (a : Addr) : Word := zext16 a

/-- The address of the next instruction: `zext_16((PC[11:0] + 1) mod 4096)` (R63, F3). -/
def nextPc (pc : Word) : Word := zext16 (addressField pc + 1#12)

/-- `A[15:8]`. -/
def upperByte (w : Word) : Byte := w.extractLsb' 8 8

/-- `A[7:0]`. -/
def lowerByte (w : Word) : Byte := w.extractLsb' 0 8

/-- The output byte in a register: `zext_16(A[15:8])` (R111). -/
def outputByte (w : Word) : Word := (upperByte w).setWidth 16

/-- The input byte in a register: `zext_16(b)` (R112). -/
def inputLatch (b : Byte) : Word := b.setWidth 16

/-- A with its upper half replaced: `b : A[7:0]` (R112). -/
def withUpperByte (b : Byte) (w : Word) : Word := b ++ lowerByte w

end Sys2Proof.Machine
end

