-- ==== Sys2Proof/Machine/Flags.lean ====
section
/-! DEFINITION. The two conditions the CORE computes: the signed overflow of an addition (spec/41_alu.md R88), the only
flag written (spec/10_state.md R27), and the sign test of JMA (spec/43_control.md R105). -/

namespace Sys2Proof.Machine

/-- `V(x, y)`: the operands have the same bit 15, and the sum's bit 15 differs from it (R88). -/
def addOverflow (x y : Word) : Bool := (x.msb == y.msb) && ((x + y).msb != x.msb)

/-- `A[15] = 1` (R105). -/
def isNegative (x : Word) : Bool := x.msb

end Sys2Proof.Machine
end

