-- ==== Sys2Proof/Machine/Alu.lean ====
section
/-! DEFINITION. The ALU and its seven instructions (spec/41_alu.md). For each, its row of the execute table
(spec/40_cycle_engine.md R67) and its meaning, the rest of the Execute phase with that row. -/

namespace Sys2Proof.Machine

/-! ## ALU functions (R88) -/

def aluAdd (x y : Word) : Word := x + y
def aluXor (x y : Word) : Word := x ^^^ y
def aluAnd (x y : Word) : Word := x &&& y
def aluIor (x y : Word) : Word := x ||| y
def aluNot (x : Word) : Word := ~~~x

/-- `rotl1(x) = x[14:0] : x[15]` (R10). -/
def aluRotl1 (x : Word) : Word := x.extractLsb' 0 15 ++ x.extractLsb' 15 1

/-- `Z <- MBR` (R67, E2 of the two-operand instructions). -/
def State.latchOperand (s : State) : State := s.writeReg .z s.mbr

/-! ## ADD (R91) -/

def addCell (a : Addr) (p : Fin 8) (s : State) : State :=
  match p with
  | 0 => s.latchAddress a
  | 1 => s.readMemory
  | 2 => s.latchOperand
  | 3 => (s.writeReg .a (aluAdd s.a s.z)).setOvf (addOverflow s.a s.z)
  | _ => s

def execAdd (a : Addr) (s : State) : Host.Outcome State Fault Refusal := .next (runExecute (addCell a) s)

/-! ## XOR (R92) -/

def xorCell (a : Addr) (p : Fin 8) (s : State) : State :=
  match p with
  | 0 => s.latchAddress a
  | 1 => s.readMemory
  | 2 => s.latchOperand
  | 3 => s.writeReg .a (aluXor s.a s.z)
  | _ => s

def execXor (a : Addr) (s : State) : Host.Outcome State Fault Refusal := .next (runExecute (xorCell a) s)

/-! ## AND (R93) -/

def andCell (a : Addr) (p : Fin 8) (s : State) : State :=
  match p with
  | 0 => s.latchAddress a
  | 1 => s.readMemory
  | 2 => s.latchOperand
  | 3 => s.writeReg .a (aluAnd s.a s.z)
  | _ => s

def execAnd (a : Addr) (s : State) : Host.Outcome State Fault Refusal := .next (runExecute (andCell a) s)

/-! ## IOR (R94) -/

def iorCell (a : Addr) (p : Fin 8) (s : State) : State :=
  match p with
  | 0 => s.latchAddress a
  | 1 => s.readMemory
  | 2 => s.latchOperand
  | 3 => s.writeReg .a (aluIor s.a s.z)
  | _ => s

def execIor (a : Addr) (s : State) : Host.Outcome State Fault Refusal := .next (runExecute (iorCell a) s)

/-! ## NOT (R95): the address field is ignored -/

def notCell (_a : Addr) (p : Fin 8) (s : State) : State :=
  match p with
  | 0 => s.writeReg .a (aluNot s.a)
  | _ => s

def execNot (a : Addr) (s : State) : Host.Outcome State Fault Refusal := .next (runExecute (notCell a) s)

/-! ## RAL (R96): the address field is ignored -/

def ralCell (_a : Addr) (p : Fin 8) (s : State) : State :=
  match p with
  | 0 => s.writeReg .a (aluRotl1 s.a)
  | _ => s

def execRal (a : Addr) (s : State) : Host.Outcome State Fault Refusal := .next (runExecute (ralCell a) s)

/-! ## CSA (R97): the address field is ignored -/

def csaCell (_a : Addr) (p : Fin 8) (s : State) : State :=
  match p with
  | 0 => s.writeReg .a s.sr
  | _ => s

def execCsa (a : Addr) (s : State) : Host.Outcome State Fault Refusal := .next (runExecute (csaCell a) s)

end Sys2Proof.Machine
end

