-- ==== Sys2Proof/Machine/Control.lean ====
section
/-! DEFINITION. HLT, SRJ, JMA, JMP and NOP (spec/43_control.md): their rows of the execute table (R67) and their meanings. -/

namespace Sys2Proof.Machine

/-! ## HLT (R102): the address field is ignored -/

def hltCell (_a : Addr) (p : Fin 8) (s : State) : State :=
  match p with
  | 7 => s.setHalted true
  | _ => s

def execHlt (a : Addr) (s : State) : Host.Outcome State Fault Refusal := .next (runExecute (hltCell a) s)

/-! ## SRJ (R103): all 16 bits of PC are saved -/

def srjCell (a : Addr) (p : Fin 8) (s : State) : State :=
  match p with
  | 0 => s.latchAddress a
  | 1 => s.writeReg .mbr s.pc
  | 2 => s.writeMemory
  | 3 => s.writeReg .pc (subroutineEntry a)
  | _ => s

def execSrj (a : Addr) (s : State) : Host.Outcome State Fault Refusal := .next (runExecute (srjCell a) s)

/-! ## JMA (R105) -/

def jmaCell (a : Addr) (p : Fin 8) (s : State) : State :=
  match p with
  | 0 => if isNegative s.a then s.writeReg .pc (jumpTarget a) else s
  | _ => s

def execJma (a : Addr) (s : State) : Host.Outcome State Fault Refusal := .next (runExecute (jmaCell a) s)

/-! ## JMP (R106) -/

def jmpCell (a : Addr) (p : Fin 8) (s : State) : State :=
  match p with
  | 0 => s.writeReg .pc (jumpTarget a)
  | _ => s

def execJmp (a : Addr) (s : State) : Host.Outcome State Fault Refusal := .next (runExecute (jmpCell a) s)

/-! ## NOP (R107): the address field is ignored -/

def nopCell (_a : Addr) (_p : Fin 8) (s : State) : State := s

def execNop (a : Addr) (s : State) : Host.Outcome State Fault Refusal := .next (runExecute (nopCell a) s)

end Sys2Proof.Machine
end

