-- ==== Sys2Proof/Machine/Io.lean ====
section
/-! DEFINITION. INP and OUT (spec/44_io.md): their rows of the execute table (R67) and their meanings, up to the hold and on
from it (R109), and the two completions of the handshake's host side (R112, R113). -/

namespace Sys2Proof.Machine

/-! ## INP (R110) -/

def inpCell (a : Addr) (p : Fin 8) (s : State) : State :=
  match p with
  | 0 => (s.writeReg .dsl (deviceSelector a)).setHandshake .awaitIn false
  | _ => s

def execInp (a : Addr) (s : State) : Host.Outcome State Fault Refusal := .next (runExecute (inpCell a) s)

/-! ## OUT (R111) -/

def outCell (a : Addr) (p : Fin 8) (s : State) : State :=
  match p with
  | 0 => s.writeReg .dsl (deviceSelector a)
  | 1 => (s.writeReg .dol (outputByte s.a)).setHandshake .awaitOut false
  | _ => s

def execOut (a : Addr) (s : State) : Host.Outcome State Fault Refusal := .next (runExecute (outCell a) s)

/-! ## The host side of the handshake -/

/-- Is an input transfer pending and served (R112)? -/
def State.inputPending (s : State) : Bool := s.power && decide (s.io = .awaitIn)

/-- Is an output transfer pending and served (R113)? -/
def State.outputPending (s : State) : Bool := s.power && decide (s.io = .awaitOut)

/-- `DIL <- zext_16(b); A <- b : A[7:0]; ready <- 1; io <- Idle`, together (R112). -/
def State.acceptInput (s : State) (b : Byte) : State :=
  ((s.writeReg .dil (inputLatch b)).writeReg .a (withUpperByte b s.a)).setHandshake .idle true

/-- `ready <- 1; io <- Idle` (R113). -/
def State.acceptOutput (s : State) : State := s.setHandshake .idle true

end Sys2Proof.Machine
end

