-- ==== Sys2Proof/Machine/LoadStore.lean ====
section
/-! DEFINITION. LDA and STA (spec/42_load_store.md): their rows of the execute table (R67) and their meanings. -/

namespace Sys2Proof.Machine

/-! ## LDA (R99): Z is not written -/

def ldaCell (a : Addr) (p : Fin 8) (s : State) : State :=
  match p with
  | 0 => s.latchAddress a
  | 1 => s.readMemory
  | 2 => s.writeReg .a s.mbr
  | _ => s

def execLda (a : Addr) (s : State) : Host.Outcome State Fault Refusal := .next (runExecute (ldaCell a) s)

/-! ## STA (R100) -/

def staCell (a : Addr) (p : Fin 8) (s : State) : State :=
  match p with
  | 0 => s.latchAddress a
  | 1 => s.writeReg .mbr s.a
  | 2 => s.writeMemory
  | _ => s

def execSta (a : Addr) (s : State) : Host.Outcome State Fault Refusal := .next (runExecute (staCell a) s)

end Sys2Proof.Machine
end

