-- ==== Sys2Proof/Machine/Dispatch.lean ====
section
/-! DEFINITION. One arm per instruction: its Execute phase from wherever the sequencer stands in it (R61, R67). -/

namespace Sys2Proof.Machine

def exec (i : Instr) (s : State) : Host.Outcome State Fault Refusal :=
  match i with
  | .hlt a => Sys2Proof.Machine.execHlt a s
  | .add a => Sys2Proof.Machine.execAdd a s
  | .xor a => Sys2Proof.Machine.execXor a s
  | .and a => Sys2Proof.Machine.execAnd a s
  | .ior a => Sys2Proof.Machine.execIor a s
  | .not a => Sys2Proof.Machine.execNot a s
  | .lda a => Sys2Proof.Machine.execLda a s
  | .sta a => Sys2Proof.Machine.execSta a s
  | .srj a => Sys2Proof.Machine.execSrj a s
  | .jma a => Sys2Proof.Machine.execJma a s
  | .jmp a => Sys2Proof.Machine.execJmp a s
  | .inp a => Sys2Proof.Machine.execInp a s
  | .out a => Sys2Proof.Machine.execOut a s
  | .ral a => Sys2Proof.Machine.execRal a s
  | .csa a => Sys2Proof.Machine.execCsa a s
  | .nop a => Sys2Proof.Machine.execNop a s

end Sys2Proof.Machine
end

