-- ==== Sys2Proof/Machine/Cycle.lean ====
section
/-! DEFINITION. The Fetch phase (spec/40_cycle_engine.md R63), one pulse (`StepPulse`, R69), the instruction cycle as the
loop of pulses that the host's `RunCycle` is (R77), and the same cycle by whole phases, through `exec`. -/

namespace Sys2Proof.Machine

/-! ## Fetch -/

/-- The fetch table of R63. -/
def fetchCell (p : Fin 8) (s : State) : State :=
  match p with
  | 0 => ((s.writeReg .mar s.pc).setOvf false).setBypass { s.bpskip with valid := false }
  | 1 => s.readMemory
  | 2 => s.writeReg .ir s.mbr
  | 3 => s.writeReg .pc (nextPc s.pc)
  | _ => s

/-- The rest of the Fetch phase, up to E0. -/
def fetchPhase (s : State) : State := runPulses .fetch fetchCell Config.pulsesPerPhase s

/-! ## One pulse -/

/-- The execute table of R67: the cell of an instruction at a pulse. -/
def executeCell (i : Instr) (p : Fin 8) (s : State) : State :=
  match i with
  | .hlt a => hltCell a p s
  | .add a => addCell a p s
  | .xor a => xorCell a p s
  | .and a => andCell a p s
  | .ior a => iorCell a p s
  | .not a => notCell a p s
  | .lda a => ldaCell a p s
  | .sta a => staCell a p s
  | .srj a => srjCell a p s
  | .jma a => jmaCell a p s
  | .jmp a => jmpCell a p s
  | .inp a => inpCell a p s
  | .out a => outCell a p s
  | .ral a => ralCell a p s
  | .csa a => csaCell a p s
  | .nop a => nopCell a p s

/-- The transfers of the current position (R62): a fetch cell, or the cell of the instruction that IR decodes to (R52). -/
def currentCell (p : Fin 8) (s : State) : State :=
  match s.phase with
  | .fetch => fetchCell p s
  | .execute => executeCell (decodeWord s.ir) p s

/-- The statuses of R76. -/
inductive Status where
  | continuing
  | halted
  | breakpointHit (addr : Addr)
  | awaitingInput
  | awaitingOutput
  deriving DecidableEq, Repr

/-- `StatusOf` (R69). -/
def statusOf (s : State) : Status :=
  if s.halted then .halted
  else match s.io with
    | .awaitIn => .awaitingInput
    | .awaitOut => .awaitingOutput
    | .idle => .continuing

/-- The overflow bit of the pulse about to be performed: E3 of an ADD whose signed sum overflows (R69 step 4, R76). -/
def overflowReport (s : State) : Bool :=
  decide (s.phase = .execute) && decide (opcodeField s.ir = 1#4) && decide (s.pulse = 3) && addOverflow s.a s.z

/-- What a `StepPulse` or `RunCycle` leaves and returns (R76). -/
structure PulseResult where
  state : State
  status : Status
  overflow : Bool
  deriving DecidableEq, Repr

/-- `StepPulse` (R69), its checks in the order of R70. -/
def stepPulse (s : State) : PulseResult :=
  if s.power = false then { state := s, status := .halted, overflow := false }
  else if s.halted = true then { state := s, status := .halted, overflow := false }
  else if s.breakpointFires = true then
    { state := s.hitBreakpoint, status := .breakpointHit s.pcAddr, overflow := false }
  else match s.io with
    | .awaitIn => { state := s, status := .awaitingInput, overflow := false }
    | .awaitOut => { state := s, status := .awaitingOutput, overflow := false }
    | .idle =>
      { state := performPulse currentCell s
        status := statusOf (performPulse currentCell s)
        overflow := overflowReport s }

/-! ## One instruction cycle -/

/-- The loop of `RunCycle` (R77), at most `n` pulses long. -/
def runCycleLoop : Nat → Bool → State → PulseResult
  | 0, seen, s => { state := s, status := .continuing, overflow := seen }
  | n + 1, seen, s =>
    let r := stepPulse s
    if r.status ≠ .continuing then { r with overflow := seen || r.overflow }
    else if r.state.atBoundary = true then { r with overflow := seen || r.overflow }
    else runCycleLoop n (seen || r.overflow) r.state

/-- `RunCycle` (R77, R78). Sixteen pulses always reach a cycle boundary, so the bound cuts no cycle short (R142). -/
def runCycle (s : State) : PulseResult := runCycleLoop 16 false s

/-- The state `RunCycle` leaves, by whole phases: the gates in the order of R70, the rest of the fetch, then `exec` of the
instruction that IR decodes to. -/
def runInstruction (s : State) : Host.Outcome State Fault Refusal :=
  if s.power = false then .next s
  else if s.halted = true then .next s
  else if s.breakpointFires = true then .next s.hitBreakpoint
  else if (fetchPhase s).phase = .execute then exec (decodeWord (fetchPhase s).ir) (fetchPhase s)
  else .next (fetchPhase s)

end Sys2Proof.Machine
end

