-- ==== Sys2Proof/Machine/Commands.lean ====
section
/-! DEFINITION. The host's commands (spec/40_cycle_engine.md R71), each with its result (spec/60_exceptions.md R117). -/

namespace Sys2Proof.Machine

/-- What a command answers its host. The source gives these names and no numbers (R117). -/
inductive Response where
  /-- The command did its work. -/
  | ok
  /-- `ReadRegister`: the value (R80). -/
  | value (v : Word)
  /-- A selector that names no register (R80). -/
  | unknownRegister
  /-- A breakpoint address outside 0 to 4095 (R130). -/
  | invalidBreakpointAddress
  /-- More than 4096 words (R82). -/
  | programTooLarge
  /-- A completion command that completed a transfer (R112, R113). -/
  | accepted
  /-- A completion command with nothing pending, or with power off (R112, R113). -/
  | ignored
  /-- `StepPulse`, `RunCycle`: the status and the overflow bit (R76). -/
  | pulses (status : Status) (overflow : Bool)
  /-- `RunProgram`: the first status other than `Continuing` (R79). -/
  | stopped (status : Status)
  /-- `RunProgram`: still `Continuing` after the given number of cycles, which is no state of the engine (log 6). -/
  | outOfFuel
  /-- `DumpMemory`: the pairs (address, word) (R83). -/
  | dump (cells : List (Nat × Word))
  /-- `Observe`: every field of the engine (R85). -/
  | observed (engine : State)
  deriving DecidableEq, Repr

/-- `Construct(cfg)` (R135): the only reset; no rule of the CORE reads `cfg` (R28). -/
def construct (_cfg : Config.DebugConfig) : State := State.reset

/-- `LoadProgram(words)` (R82). -/
def loadProgram (words : List Word) (s : State) : State × Response :=
  if words.length ≤ Config.maxProgramWords then (s.setRam (Memory.load 0 words s.ram), .ok)
  else (s, .programTooLarge)

/-- The loop of `RunProgram` (R79), at most `n` cycles long. -/
def runProgramLoop : Nat → State → State × Response
  | 0, s => (s, .outOfFuel)
  | n + 1, s =>
    let r := runCycle s
    if r.status = .continuing then runProgramLoop n r.state else (r.state, .stopped r.status)

/-- `RunProgram(words)` (R79), bounded by `cycles` calls of `RunCycle` (log 6). -/
def runProgram (cycles : Nat) (words : List Word) (s : State) : State × Response :=
  if words.length ≤ Config.maxProgramWords then runProgramLoop cycles (loadProgram words s).1
  else (s, .programTooLarge)

/-- `ReadRegister(sel)` (R80). -/
def readRegister (sel : Fin 16) (s : State) : Response :=
  match regOfSelector sel with
  | some r => .value (s.readReg r)
  | none => .unknownRegister

/-- `WriteRegister(sel, v)` (R80, R81). -/
def writeRegister (sel : Fin 16) (v : Word) (s : State) : State × Response :=
  match regOfSelector sel with
  | some r => (s.writeReg r v, .ok)
  | none => (s, .unknownRegister)

/-- `DumpMemory` (R83): all 4096 words, in ascending order. -/
def dumpMemory (s : State) : List (Nat × Word) :=
  (List.range Config.memWords).map (fun n => (n, Memory.read s.ram (BitVec.ofNat 12 n)))

/-- `SetBreakpoint(addr)` (R130). -/
def setBreakpoint (addr : Nat) (s : State) : State × Response :=
  if addr < Config.memWords then (s.setBreakpoints (insertBreakpoint (BitVec.ofNat 12 addr) s.bp), .ok)
  else (s, .invalidBreakpointAddress)

/-- `ClearBreakpoints` (R131). -/
def clearBreakpoints (s : State) : State := (s.setBreakpoints []).setBypass { s.bpskip with valid := false }

/-- `CompleteInput(b)` (R112). -/
def completeInput (b : Byte) (s : State) : State × Response :=
  if s.inputPending = true then (s.acceptInput b, .accepted) else (s, .ignored)

/-- `CompleteOutput` (R113). -/
def completeOutput (s : State) : State × Response :=
  if s.outputPending = true then (s.acceptOutput, .accepted) else (s, .ignored)

/-- `Resume` (R84): no effect with power off, and none if not halted. -/
def resume (s : State) : State := if s.power = true then s.setHalted false else s

/-- `Observe` (R85): the fields of R29, so less the commands the model holds for the host (log 2). -/
def observe (s : State) : State := s.setHostQueue []

/-- Apply one command, whole and between two pulses (R72). The commands the host issues later are its own, so `Construct`
keeps them (log 2). -/
def command (c : Command) (s : State) : State × Response :=
  match c with
  | .construct cfg => ((construct cfg).setHostQueue s.hostQueue, .ok)
  | .loadProgram words => loadProgram words s
  | .stepPulse => ((stepPulse s).state, .pulses (stepPulse s).status (stepPulse s).overflow)
  | .runCycle => ((runCycle s).state, .pulses (runCycle s).status (runCycle s).overflow)
  | .runProgram cycles words => runProgram cycles words s
  | .readRegister sel => (s, readRegister sel s)
  | .writeRegister sel v => writeRegister sel v s
  | .dumpMemory => (s, .dump (dumpMemory s))
  | .setBreakpoint addr => setBreakpoint addr s
  | .clearBreakpoints => (clearBreakpoints s, .ok)
  | .powerOff => (s.setPower false, .ok)
  | .completeInput b => completeInput b s
  | .completeOutput => completeOutput s
  | .resume => (resume s, .ok)
  | .observe => (s, .observed (observe s))

/-- The host's next command applied: the oldest of `hostQueue` (log 2). -/
def serveCommand (c : Command) (rest : List Command) (s : State) : State := (command c (s.setHostQueue rest)).1

/-- The state in which the word `w` is what the next fetch reads and nothing keeps that fetch from running (log 8). At
`State.reset` this changes memory alone. -/
def placeForFetch (w : Word) (s : State) : State :=
  let t := (((s.setRam (Memory.write s.ram s.pcAddr w)).setPosition .fetch 0).setPower true).setHalted false
  let u := { t with io := .idle, hostQueue := [] }
  if u.breakpointFires = true then u.hitBreakpoint else u

end Sys2Proof.Machine
end

