-- ==== Sys2Proof/Machine/Step.lean ====
section
/-! DEFINITION. One step of the machine: the host's next command if it has one waiting, else one instruction cycle, the
host's `RunCycle` (log 1, log 2). -/

namespace Sys2Proof.Machine

/-- One step. With no command waiting it is `RunCycle` (R77): what is left of the instruction cycle, or a stop of R70. -/
def step (s : State) : Host.Outcome State Fault Refusal :=
  match s.hostQueue with
  | [] => runInstruction s
  | c :: rest => .next (serveCommand c rest s)

/-- `s` with the instruction whose bits are `w` stored where the next step fetches (log 8). -/
def State.withFetchWord (s : State) (nbits w : Nat) : State := placeForFetch (BitVec.ofNat 16 (w % 2 ^ nbits)) s

end Sys2Proof.Machine
end

