-- ==== Sys2Proof/Safety.lean ====
section
/-! DEFINITION. What the claims speak of: the invariants of spec/10_state.md R32, the states a host can reach, where the
sequencer stands, and what a step keeps. -/

namespace Sys2Proof.Machine

/-- The invariants of R32 (the range of `pulse`, its first, is the field's type), with the canonical forms of the two lists
that hold RAM and BP (log 3, log 4). -/
abbrev State.Inv (s : State) : Prop :=
  (s.io = .awaitIn → s.phase = .execute ∧ s.pulse = 1) ∧
  (s.io = .awaitOut → s.phase = .execute ∧ s.pulse = 2) ∧
  (s.halted = true → s.phase = .fetch ∧ s.pulse = 0) ∧
  (s.bpskip.valid = true → s.phase = .fetch ∧ s.pulse = 0) ∧
  Memory.wf s.ram = true ∧
  breakpointsWf s.bp = true

/-- Power on, not halted, no transfer pending, and the sequencer at pulse `p` of phase `ph`: the next pulse is performed,
unless it is F0 and a breakpoint fires (R69). -/
abbrev State.PulseAt (s : State) (ph : Phase) (p : Fin 8) : Prop :=
  s.power = true ∧ s.halted = false ∧ s.io = .idle ∧ s.phase = ph ∧ s.pulse = p

/-- In the Execute phase at any pulse, with nothing that holds it. -/
abbrev State.Executing (s : State) : Prop :=
  s.power = true ∧ s.halted = false ∧ s.io = .idle ∧ s.phase = .execute

/-- At a cycle boundary with nothing that stops a cycle: power on, not halted, no transfer pending, no breakpoint. -/
abbrev State.ReadyToFetch (s : State) : Prop :=
  s.power = true ∧ s.halted = false ∧ s.io = .idle ∧ s.phase = .fetch ∧ s.pulse = 0 ∧ s.breakpointFires = false

/-- The same state at the next cycle boundary. -/
def State.toBoundary (s : State) : State := s.setPosition .fetch 0

/-- Every register but those listed is as before. -/
abbrev RegsKeptBut (rs : List Reg) (s t : State) : Prop := ∀ r, r ∉ rs → t.readReg r = s.readReg r

/-- Every word of memory reads as before. -/
abbrev MemoryKept (s t : State) : Prop := ∀ x, Memory.read t.ram x = Memory.read s.ram x

/-- Power, breakpoints, bypass latch and waiting host commands are as before. -/
abbrev DebugKept (s t : State) : Prop :=
  t.power = s.power ∧ t.bp = s.bp ∧ t.bpskip = s.bpskip ∧ t.hostQueue = s.hostQueue

/-- The I/O transfer state and the ready flag are as before. -/
abbrev HandshakeKept (s t : State) : Prop := t.io = s.io ∧ t.ready = s.ready

/-- The states some sequence of commands reaches from `Construct` (R32). -/
inductive Reachable : State → Prop where
  | construct (cfg : Config.DebugConfig) : Reachable (Machine.construct cfg)
  | command (c : Command) (s : State) : Reachable s → Reachable (Machine.command c s).1

end Sys2Proof.Machine
end

