-- ==== Sys2Proof/Certificates/Slice0/Obligations.lean ====
section
/-! DEFINITION. The statements for the provers. A statement names the spec's rule it formalises; where a clause rests on a
decision that the spec marks as its own (D<n> of spec/92_eei_decisions.md) or on a log entry, its docstring says so. -/

open Sys2Proof Sys2Proof.Machine

/-! ## Encoding (spec/30_encoding.md) -/

/-- Decoding the word of a well-formed instruction gives the instruction back, with every value of its field (R49, R53). -/
def Obligations.DecodeOfEncode : Prop := ∀ i : Instr, i.wellFormed = true → decodeWord (encode i) = i

/-- Every word is the word of exactly one instruction, that instruction has a next state in every state, and the word 0x0000
is HLT (R54). -/
def Obligations.EveryWordIsOneInstruction : Prop :=
  (∀ w : Word, encode (decodeWord w) = w ∧ ∀ i : Instr, encode i = w → i = decodeWord w) ∧
  (∀ (w : Word) (s : State), ∃ t, exec (decodeWord w) s = .next t) ∧
  decodeWord 0x0000#16 = .hlt 0x000#12

/-- An instruction is one word, taken from the head of a sequence (R48), whose bits 15:12 are the opcode and whose bits 11:0
are the address field (R49). -/
def Obligations.OneWordTwoFields : Prop :=
  (∀ (w : Word) (rest : List Word), decodeWords (w :: rest) = .ok (decodeWord w, rest)) ∧
  ∀ w : Word, (opcodeField w).toNat = w.toNat / 4096 ∧ (addressField w).toNat = w.toNat % 4096 ∧
    w.toNat = (opcodeField w).toNat * 4096 + (addressField w).toNat

/-- A word of each family, written out from R49 and R53, decodes to its instruction. -/
def Obligations.WordsOfTheTableDecode : Prop :=
  decodeWord 0b0001000000010000#16 = .add 0x010#12 ∧
  decodeWord 0b0110000000000100#16 = .lda 0x004#12 ∧
  decodeWord 0b0111000000010101#16 = .sta 0x015#12 ∧
  decodeWord 0b1000111111111111#16 = .srj 0xFFF#12 ∧
  decodeWord 0b1011000000000101#16 = .inp 0x005#12 ∧
  decodeWord 0b1111111111111111#16 = .nop 0xFFF#12

/-- The five instructions that do not use the address field act alike for all its values (R55; for HLT, RAL, CSA and NOP that
is the spec's decision D30). -/
def Obligations.UnusedFieldIsIgnored : Prop :=
  ∀ (a b : Addr) (s : State),
    exec (.hlt a) s = exec (.hlt b) s ∧ exec (.not a) s = exec (.not b) s ∧ exec (.ral a) s = exec (.ral b) s ∧
    exec (.csa a) s = exec (.csa b) s ∧ exec (.nop a) s = exec (.nop b) s

/-! ## The ALU (spec/41_alu.md) -/

/-- The ALU's functions, and the signed overflow of an addition in its three equivalent readings: by the sign bits, by the
two's-complement sum, and by the carries into and out of bit 15 (R88). -/
def Obligations.AluComputesItsFunctions : Prop :=
  ∀ x y : Word,
    (aluAdd x y).toNat = (x.toNat + y.toNat) % 65536 ∧
    (∀ i, (aluXor x y).getLsbD i = (x.getLsbD i ^^ y.getLsbD i)) ∧
    (∀ i, (aluAnd x y).getLsbD i = (x.getLsbD i && y.getLsbD i)) ∧
    (∀ i, (aluIor x y).getLsbD i = (x.getLsbD i || y.getLsbD i)) ∧
    (aluNot x).toNat = 0xFFFF - x.toNat ∧
    (aluRotl1 x).toNat = x.toNat % 32768 * 2 + x.toNat / 32768 ∧
    (addOverflow x y = true ↔
      x.getLsbD 15 = y.getLsbD 15 ∧ (aluAdd x y).getLsbD 15 ≠ x.getLsbD 15) ∧
    (addOverflow x y = true ↔ x.toInt + y.toInt < -32768 ∨ 32767 < x.toInt + y.toInt) ∧
    (addOverflow x y = true ↔
      (x.toNat % 32768 + y.toNat % 32768) / 32768 ≠ (x.toNat + y.toNat) / 65536)

/-- Addition is commutative and associative modulo 2^16, overflow is commutative (R89), and the complement plus one is the
two's-complement negation, so the subtraction sequence of R98 gives the difference. -/
def Obligations.AdditionLaws : Prop :=
  (∀ x y : Word, aluAdd x y = aluAdd y x ∧ addOverflow x y = addOverflow y x) ∧
  (∀ x y z : Word, aluAdd (aluAdd x y) z = aluAdd x (aluAdd y z)) ∧
  (∀ x : Word, aluAdd (aluNot x) 1#16 = -x) ∧
  (∀ x m : Word, aluAdd (aluAdd (aluNot m) 1#16) x = x - m)

/-- Rotating left sixteen times gives the word back, and one rotation moves each bit up one place and bit 15 to bit 0
(spec/41_alu.md, RAL). -/
def Obligations.SixteenRotationsRestore : Prop :=
  ∀ x : Word, aluRotl1^[16] x = x ∧ ∀ i, i < 16 → (aluRotl1 x).getLsbD i = x.getLsbD ((i + 15) % 16)

/-! ## The sequencer and the fetch (spec/40_cycle_engine.md) -/

/-- The rest of the Fetch phase from each of its pulses, and where it leaves the sequencer: F0 MAR and the clearing of OVF and
of the bypass latch, F1 MBR, F2 IR, F3 PC, F4 to F7 nothing. Which pulse a transfer falls on is the spec's decision D2, the
clearing of PC[15:12] is D5, of OVF D7, of the latch D9. -/
def Obligations.FetchFromEachPulse : Prop :=
  ∀ s : State, s.power = true → s.halted = false → s.io = .idle → s.phase = .fetch →
    fetchPhase s =
      if s.pulse = 0 then
        { s.setPosition .execute 0 with
          mar := s.pc, mbr := Memory.read s.ram s.pcAddr, ir := Memory.read s.ram s.pcAddr,
          pc := zext16 (s.pcAddr + 1#12), ovf := false, bpskip := { s.bpskip with valid := false } }
      else if s.pulse = 1 then
        { s.setPosition .execute 0 with
          mbr := Memory.read s.ram (addressField s.mar), ir := Memory.read s.ram (addressField s.mar),
          pc := zext16 (s.pcAddr + 1#12) }
      else if s.pulse = 2 then
        { s.setPosition .execute 0 with ir := s.mbr, pc := zext16 (s.pcAddr + 1#12) }
      else if s.pulse = 3 then
        { s.setPosition .execute 0 with pc := zext16 (s.pcAddr + 1#12) }
      else s.setPosition .execute 0

/-- A Fetch phase, from any state, writes no register but MAR, MBR, IR and PC, no memory, and of the control fields only the
position, OVF and the valid bit of the bypass latch (the rule of spec/40_cycle_engine.md section 2 that follows its table). -/
def Obligations.FetchFrame : Prop :=
  ∀ s : State, RegsKeptBut [.mar, .mbr, .ir, .pc] s (fetchPhase s) ∧ MemoryKept s (fetchPhase s) ∧
    HandshakeKept s (fetchPhase s) ∧ (fetchPhase s).halted = s.halted ∧ (fetchPhase s).power = s.power ∧
    (fetchPhase s).bp = s.bp ∧ (fetchPhase s).bpskip.addr = s.bpskip.addr ∧ (fetchPhase s).hostQueue = s.hostQueue

/-- A performed pulse moves the sequencer to the next pulse, and from pulse 7 to pulse 0 of the other phase; a hold does not
move it (R60). -/
def Obligations.PerformedPulseAdvances : Prop :=
  ∀ s : State,
    (s.power = true → s.halted = false → s.io = .idle → s.breakpointFires = false →
      if s.pulse = 7 then
        (stepPulse s).state.pulse = 0 ∧
          (s.phase = .fetch → (stepPulse s).state.phase = .execute) ∧
          (s.phase = .execute → (stepPulse s).state.phase = .fetch)
      else (stepPulse s).state.pulse.val = s.pulse.val + 1 ∧ (stepPulse s).state.phase = s.phase) ∧
    (s.power = false ∨ s.halted = true ∨ s.breakpointFires = true ∨ s.io ≠ .idle →
      (stepPulse s).state.pulse = s.pulse ∧ (stepPulse s).state.phase = s.phase)

/-- A step with no host command waiting runs the instruction that the word at PC decodes to: from a cycle boundary, `exec` of
it after the fetch; from the middle of an Execute phase, `exec` of what IR holds. What a step is between two host commands is
the model's choice: log 1, log 2. -/
def Obligations.StepRunsTheDecodedInstruction : Prop :=
  (∀ (i : Instr) (s : State), s.ReadyToFetch → s.hostQueue = [] → Memory.read s.ram s.pcAddr = encode i →
    step s = exec i
      { s.setPosition .execute 0 with
        mar := s.pc, mbr := encode i, ir := encode i, pc := zext16 (s.pcAddr + 1#12), ovf := false,
        bpskip := { s.bpskip with valid := false } }) ∧
  ∀ (i : Instr) (s : State), s.Executing → s.hostQueue = [] → s.ir = encode i → step s = exec i s

/-- The step by whole phases, which calls `exec`, leaves what the host's `RunCycle` leaves, the loop of single pulses that each
read the pulse tables and decode IR anew (spec/40_cycle_engine.md sections 4 and 5; the loop is the spec's decision D17, that a
step with no command waiting is a `RunCycle` is the model's choice, log 1, log 2). -/
def Obligations.StepIsRunCycle : Prop :=
  ∀ s : State, s.hostQueue = [] → step s = .next (runCycle s).state

/-- The model's bounds cut nothing short: a cycle is over within sixteen pulses whatever the state, and a `RunProgram` that
stops within some number of cycles answers the same for every larger number (log 6). -/
def Obligations.BoundsCutNothingShort : Prop :=
  (∀ (n : Nat) (s : State), runCycleLoop (16 + n) false s = runCycle s) ∧
  ∀ (n k : Nat) (words : List Word) (s : State), (runProgram n words s).2 ≠ .outOfFuel →
    runProgram (n + k) words s = runProgram n words s

/-- Every step from every state answers a next state: no exception, no trap, no error case (spec/60_exceptions.md section 1;
what a step is, is the model's choice, log 1, log 2). -/
def Obligations.EveryStepAnswers : Prop := ∀ s : State, ∃ t, step s = .next t

/-- While a transfer is pending, `StepPulse` and `RunCycle` perform no pulse, change no state and report which side is awaited
(R109). The invariant rules out the states that no run reaches; with power off the report is `Halted` (R74). -/
def Obligations.PendingTransferHolds : Prop :=
  ∀ s : State, s.Inv → s.power = true →
    (s.io = .awaitIn →
      stepPulse s = { state := s, status := .awaitingInput, overflow := false } ∧
      runCycle s = { state := s, status := .awaitingInput, overflow := false }) ∧
    (s.io = .awaitOut →
      stepPulse s = { state := s, status := .awaitingOutput, overflow := false } ∧
      runCycle s = { state := s, status := .awaitingOutput, overflow := false })

/-- With power off or halted, `StepPulse` and `RunCycle` report `Halted` and change nothing, a breakpoint at PC or not; with
power off the completions are ignored and `Resume` does nothing (spec/40_cycle_engine.md sections 4 and 5; decisions D8, D14,
D16, D21, D33 and D34; what a step is, is the model's choice, log 1, log 2). -/
def Obligations.HaltedOrOffStands : Prop :=
  (∀ s : State, s.power = false ∨ s.halted = true →
    stepPulse s = { state := s, status := .halted, overflow := false } ∧
    runCycle s = { state := s, status := .halted, overflow := false } ∧ (s.hostQueue = [] → step s = .next s)) ∧
  ∀ (s : State) (b : Byte), s.power = false →
    command (.completeInput b) s = (s, .ignored) ∧ command .completeOutput s = (s, .ignored) ∧ command .resume s = (s, .ok)

/-- `StepPulse` reports a breakpoint exactly when the engine is on and not halted, the sequencer is at F0, PC[11:0] is in the
set and the bypass latch does not name it; then only the bypass latch changes, and so for `RunCycle` and for a step
(spec/60_exceptions.md section 7; the place of the comparison and the latch are the spec's decision D9, what a step is, is the
model's choice, log 1, log 2). -/
def Obligations.BreakpointStopsBeforeTheFetch : Prop :=
  ∀ (s : State) (x : Addr),
    ((stepPulse s).status = .breakpointHit x ↔
      s.power = true ∧ s.halted = false ∧ s.phase = .fetch ∧ s.pulse = 0 ∧ x = addressField s.pc ∧ x ∈ s.bp ∧
        ¬(s.bpskip.valid = true ∧ s.bpskip.addr = x)) ∧
    ((stepPulse s).status = .breakpointHit x →
      stepPulse s = { state := s.setBypass { valid := true, addr := x }, status := .breakpointHit x, overflow := false } ∧
      runCycle s = stepPulse s ∧ (s.hostQueue = [] → step s = .next (stepPulse s).state))

/-- After a hit the next `StepPulse` passes the comparator and performs F0, which clears the latch's valid bit, so the hit is
reported once per arrival; if the host moves PC to another breakpoint, that one fires (spec/60_exceptions.md section 7;
decision D9). -/
def Obligations.BypassPassesOnce : Prop :=
  ∀ (s : State) (x : Addr), s.io = .idle → (stepPulse s).status = .breakpointHit x →
    stepPulse (stepPulse s).state =
      { state := { s.setPosition .fetch 1 with
          mar := s.pc, ovf := false, bpskip := { valid := false, addr := x } }
        status := .continuing, overflow := false } ∧
    ∀ (y : Word), addressField y ≠ x → addressField y ∈ s.bp →
      (stepPulse ((stepPulse s).state.writeReg .pc y)).status = .breakpointHit (addressField y)

/-- The overflow bit is 1 exactly when a pulse that the command performs is E3 of an ADD whose signed sum overflows
(spec/40_cycle_engine.md section 5; that the bit travels beside the status is the spec's decision D7): for `StepPulse`; for
`RunCycle` over a whole ADD, over any other whole instruction, from any pulse of a Fetch phase, from any pulse of an Execute
phase (the operand is then what Z will hold at E3; the pulses are D2 and D3), and where it performs no pulse. -/
def Obligations.OverflowIsReported : Prop :=
  (∀ s : State, (stepPulse s).overflow = true ↔
    s.power = true ∧ s.halted = false ∧ s.io = .idle ∧ s.phase = .execute ∧ s.pulse = 3 ∧ opcodeField s.ir = 1#4 ∧
      addOverflow s.a s.z = true) ∧
  (∀ (s : State) (a : Addr), s.ReadyToFetch → Memory.read s.ram s.pcAddr = encode (.add a) →
    (runCycle s).status = .continuing ∧ (runCycle s).overflow = addOverflow s.a (Memory.read s.ram a)) ∧
  (∀ s : State, s.ReadyToFetch → opcodeField (Memory.read s.ram s.pcAddr) ≠ 1#4 → (runCycle s).overflow = false) ∧
  (∀ s : State, s.power = true → s.halted = false → s.io = .idle → s.phase = .fetch → s.breakpointFires = false →
    (runCycle s).overflow =
      (decide (opcodeField (fetchPhase s).ir = 1#4) &&
        addOverflow s.a (Memory.read s.ram (addressField (fetchPhase s).ir)))) ∧
  (∀ s : State, s.Executing →
    (runCycle s).overflow =
      (decide (opcodeField s.ir = 1#4) &&
        if s.pulse = 0 then addOverflow s.a (Memory.read s.ram (addressField s.ir))
        else if s.pulse = 1 then addOverflow s.a (Memory.read s.ram (addressField s.mar))
        else if s.pulse = 2 then addOverflow s.a s.mbr
        else if s.pulse = 3 then addOverflow s.a s.z
        else false)) ∧
  ∀ s : State, s.power = false ∨ s.halted = true ∨ s.breakpointFires = true ∨ s.io ≠ .idle → (runCycle s).overflow = false

/-- From a cycle boundary, sixteen performed pulses are one whole cycle of every instruction, and no fewer come back to a
boundary (spec/70_reset_and_hazards.md section 4, spec/40_cycle_engine.md section 5; decisions D3, D11, D12 and D40). For all
but INP and OUT they are sixteen `StepPulse` calls. INP is held after nine and takes seven more after the accepted
`CompleteInput`; OUT is held after ten and takes six more after the accepted `CompleteOutput`; `RunCycle` finishes either. -/
def Obligations.SixteenPulsesPerInstruction : Prop :=
  ∀ s : State, s.ReadyToFetch →
    (opcodeField (Memory.read s.ram s.pcAddr) ≠ 11#4 → opcodeField (Memory.read s.ram s.pcAddr) ≠ 12#4 →
      (fun x => (stepPulse x).state)^[16] s = (runCycle s).state ∧
      ((fun x => (stepPulse x).state)^[16] s).atBoundary = true ∧
      ∀ k, 0 < k → k < 16 → ((fun x => (stepPulse x).state)^[k] s).atBoundary = false) ∧
    (opcodeField (Memory.read s.ram s.pcAddr) = 11#4 →
      (fun x => (stepPulse x).state)^[9] s = (runCycle s).state ∧ (runCycle s).status = .awaitingInput ∧
      (runCycle s).state.phase = .execute ∧ (runCycle s).state.pulse = 1 ∧
      (∀ k, 0 < k → k ≤ 9 → ((fun x => (stepPulse x).state)^[k] s).atBoundary = false) ∧
      ∀ b : Byte, ∃ u, command (.completeInput b) (runCycle s).state = (u, .accepted) ∧
        (fun x => (stepPulse x).state)^[7] u = (runCycle u).state ∧ (runCycle u).status = .continuing ∧
        ((fun x => (stepPulse x).state)^[7] u).atBoundary = true ∧
        ∀ k, k < 7 → ((fun x => (stepPulse x).state)^[k] u).atBoundary = false) ∧
    (opcodeField (Memory.read s.ram s.pcAddr) = 12#4 →
      (fun x => (stepPulse x).state)^[10] s = (runCycle s).state ∧ (runCycle s).status = .awaitingOutput ∧
      (runCycle s).state.phase = .execute ∧ (runCycle s).state.pulse = 2 ∧
      (∀ k, 0 < k → k ≤ 10 → ((fun x => (stepPulse x).state)^[k] s).atBoundary = false) ∧
      ∃ u, command .completeOutput (runCycle s).state = (u, .accepted) ∧
        (fun x => (stepPulse x).state)^[6] u = (runCycle u).state ∧ (runCycle u).status = .continuing ∧
        ((fun x => (stepPulse x).state)^[6] u).atBoundary = true ∧
        ∀ k, k < 6 → ((fun x => (stepPulse x).state)^[k] u).atBoundary = false)

/-! ## The sixteen instructions: the word, and the whole next state from every pulse of the Execute phase

The pulse each transfer falls on is the spec's decision D3 (the execute table of spec/40_cycle_engine.md R67, restated by each
instruction's rule). -/

/-- HLT (R102): from any pulse, the rest of the phase sets `halted` and changes no register; the engine rests at F0
(decision D8). -/
def Obligations.HltHalts : Prop :=
  (∀ w : Word, w &&& 0xF000#16 = 0x0000#16 → decodeWord w = .hlt (addressField w)) ∧
  ∀ (a : Addr) (s : State), s.Executing → exec (.hlt a) s = .next { s.toBoundary with halted := true }

/-- ADD (R91): E0 MAR, E1 MBR, E2 Z, E3 A and OVF. Z is the spec's decision D4, OVF D7. -/
def Obligations.AddSumsIntoA : Prop :=
  (∀ w : Word, w &&& 0xF000#16 = 0x1000#16 → decodeWord w = .add (addressField w)) ∧
  ∀ (a : Addr) (s : State), s.Executing →
    exec (.add a) s = .next (
      if s.pulse = 0 then
        { s.toBoundary with
          mar := zext16 a, mbr := Memory.read s.ram a, z := Memory.read s.ram a,
          a := s.a + Memory.read s.ram a, ovf := addOverflow s.a (Memory.read s.ram a) }
      else if s.pulse = 1 then
        { s.toBoundary with
          mbr := Memory.read s.ram (addressField s.mar), z := Memory.read s.ram (addressField s.mar),
          a := s.a + Memory.read s.ram (addressField s.mar),
          ovf := addOverflow s.a (Memory.read s.ram (addressField s.mar)) }
      else if s.pulse = 2 then
        { s.toBoundary with z := s.mbr, a := s.a + s.mbr, ovf := addOverflow s.a s.mbr }
      else if s.pulse = 3 then { s.toBoundary with a := s.a + s.z, ovf := addOverflow s.a s.z }
      else s.toBoundary)

/-- XOR (R92): E0 MAR, E1 MBR, E2 Z, E3 A; no flag. Z is the spec's decision D4. -/
def Obligations.XorIntoA : Prop :=
  (∀ w : Word, w &&& 0xF000#16 = 0x2000#16 → decodeWord w = .xor (addressField w)) ∧
  ∀ (a : Addr) (s : State), s.Executing →
    exec (.xor a) s = .next (
      if s.pulse = 0 then
        { s.toBoundary with
          mar := zext16 a, mbr := Memory.read s.ram a, z := Memory.read s.ram a, a := s.a ^^^ Memory.read s.ram a }
      else if s.pulse = 1 then
        { s.toBoundary with
          mbr := Memory.read s.ram (addressField s.mar), z := Memory.read s.ram (addressField s.mar),
          a := s.a ^^^ Memory.read s.ram (addressField s.mar) }
      else if s.pulse = 2 then { s.toBoundary with z := s.mbr, a := s.a ^^^ s.mbr }
      else if s.pulse = 3 then { s.toBoundary with a := s.a ^^^ s.z }
      else s.toBoundary)

/-- AND (R93): E0 MAR, E1 MBR, E2 Z, E3 A; no flag. Z is the spec's decision D4. -/
def Obligations.AndIntoA : Prop :=
  (∀ w : Word, w &&& 0xF000#16 = 0x3000#16 → decodeWord w = .and (addressField w)) ∧
  ∀ (a : Addr) (s : State), s.Executing →
    exec (.and a) s = .next (
      if s.pulse = 0 then
        { s.toBoundary with
          mar := zext16 a, mbr := Memory.read s.ram a, z := Memory.read s.ram a, a := s.a &&& Memory.read s.ram a }
      else if s.pulse = 1 then
        { s.toBoundary with
          mbr := Memory.read s.ram (addressField s.mar), z := Memory.read s.ram (addressField s.mar),
          a := s.a &&& Memory.read s.ram (addressField s.mar) }
      else if s.pulse = 2 then { s.toBoundary with z := s.mbr, a := s.a &&& s.mbr }
      else if s.pulse = 3 then { s.toBoundary with a := s.a &&& s.z }
      else s.toBoundary)

/-- IOR (R94): E0 MAR, E1 MBR, E2 Z, E3 A; no flag. Z is the spec's decision D4. -/
def Obligations.IorIntoA : Prop :=
  (∀ w : Word, w &&& 0xF000#16 = 0x4000#16 → decodeWord w = .ior (addressField w)) ∧
  ∀ (a : Addr) (s : State), s.Executing →
    exec (.ior a) s = .next (
      if s.pulse = 0 then
        { s.toBoundary with
          mar := zext16 a, mbr := Memory.read s.ram a, z := Memory.read s.ram a, a := s.a ||| Memory.read s.ram a }
      else if s.pulse = 1 then
        { s.toBoundary with
          mbr := Memory.read s.ram (addressField s.mar), z := Memory.read s.ram (addressField s.mar),
          a := s.a ||| Memory.read s.ram (addressField s.mar) }
      else if s.pulse = 2 then { s.toBoundary with z := s.mbr, a := s.a ||| s.mbr }
      else if s.pulse = 3 then { s.toBoundary with a := s.a ||| s.z }
      else s.toBoundary)

/-- NOT (R95): E0 complements A; the field is ignored; no flag. -/
def Obligations.NotComplementsA : Prop :=
  (∀ w : Word, w &&& 0xF000#16 = 0x5000#16 → decodeWord w = .not (addressField w)) ∧
  ∀ (a : Addr) (s : State), s.Executing →
    exec (.not a) s = .next (if s.pulse = 0 then { s.toBoundary with a := ~~~s.a } else s.toBoundary)

/-- RAL (R96): E0 rotates A left by one, bit 15 into bit 0; the field is ignored; no flag. -/
def Obligations.RalRotatesA : Prop :=
  (∀ w : Word, w &&& 0xF000#16 = 0xD000#16 → decodeWord w = .ral (addressField w)) ∧
  ∀ (a : Addr) (s : State), s.Executing →
    exec (.ral a) s = .next (if s.pulse = 0 then { s.toBoundary with a := s.a.rotateLeft 1 } else s.toBoundary)

/-- CSA (R97): E0 copies SR to A; the field is ignored; no flag. -/
def Obligations.CsaCopiesSwitches : Prop :=
  (∀ w : Word, w &&& 0xF000#16 = 0xE000#16 → decodeWord w = .csa (addressField w)) ∧
  ∀ (a : Addr) (s : State), s.Executing →
    exec (.csa a) s = .next (if s.pulse = 0 then { s.toBoundary with a := s.sr } else s.toBoundary)

/-- LDA (R99): E0 MAR, E1 MBR, E2 A; Z and the flags are not written. -/
def Obligations.LdaLoadsA : Prop :=
  (∀ w : Word, w &&& 0xF000#16 = 0x6000#16 → decodeWord w = .lda (addressField w)) ∧
  ∀ (a : Addr) (s : State), s.Executing →
    exec (.lda a) s = .next (
      if s.pulse = 0 then
        { s.toBoundary with mar := zext16 a, mbr := Memory.read s.ram a, a := Memory.read s.ram a }
      else if s.pulse = 1 then
        { s.toBoundary with
          mbr := Memory.read s.ram (addressField s.mar), a := Memory.read s.ram (addressField s.mar) }
      else if s.pulse = 2 then { s.toBoundary with a := s.mbr }
      else s.toBoundary)

/-- STA (R100): E0 MAR, E1 MBR, E2 the word at MAR[11:0]; A and the flags are unchanged. -/
def Obligations.StaStoresA : Prop :=
  (∀ w : Word, w &&& 0xF000#16 = 0x7000#16 → decodeWord w = .sta (addressField w)) ∧
  ∀ (a : Addr) (s : State), s.Executing →
    exec (.sta a) s = .next (
      if s.pulse = 0 then { s.toBoundary with mar := zext16 a, mbr := s.a, ram := Memory.write s.ram a s.a }
      else if s.pulse = 1 then { s.toBoundary with mbr := s.a, ram := Memory.write s.ram (addressField s.mar) s.a }
      else if s.pulse = 2 then { s.toBoundary with ram := Memory.write s.ram (addressField s.mar) s.mbr }
      else s.toBoundary)

/-- SRJ (R103): E0 MAR, E1 MBR takes all 16 bits of PC, E2 the word at MAR[11:0], E3 PC takes (a + 1) mod 4096. Which PC is
saved is the spec's decision D22, the width of PC D5. -/
def Obligations.SrjSavesAndJumps : Prop :=
  (∀ w : Word, w &&& 0xF000#16 = 0x8000#16 → decodeWord w = .srj (addressField w)) ∧
  ∀ (a : Addr) (s : State), s.Executing →
    exec (.srj a) s = .next (
      if s.pulse = 0 then
        { s.toBoundary with
          mar := zext16 a, mbr := s.pc, ram := Memory.write s.ram a s.pc, pc := BitVec.ofNat 16 ((a.toNat + 1) % 4096) }
      else if s.pulse = 1 then
        { s.toBoundary with
          mbr := s.pc, ram := Memory.write s.ram (addressField s.mar) s.pc, pc := BitVec.ofNat 16 ((a.toNat + 1) % 4096) }
      else if s.pulse = 2 then
        { s.toBoundary with
          ram := Memory.write s.ram (addressField s.mar) s.mbr, pc := BitVec.ofNat 16 ((a.toNat + 1) % 4096) }
      else if s.pulse = 3 then { s.toBoundary with pc := BitVec.ofNat 16 ((a.toNat + 1) % 4096) }
      else s.toBoundary)

/-- JMA (R105): E0 loads PC with the field if A[15] = 1, and else leaves PC; A and the flags are unchanged. -/
def Obligations.JmaBranchesOnSign : Prop :=
  (∀ w : Word, w &&& 0xF000#16 = 0x9000#16 → decodeWord w = .jma (addressField w)) ∧
  ∀ (a : Addr) (s : State), s.Executing →
    exec (.jma a) s =
      .next (if s.pulse = 0 ∧ s.a.getLsbD 15 = true then { s.toBoundary with pc := zext16 a } else s.toBoundary)

/-- JMP (R106): E0 loads PC with the field. -/
def Obligations.JmpJumps : Prop :=
  (∀ w : Word, w &&& 0xF000#16 = 0xA000#16 → decodeWord w = .jmp (addressField w)) ∧
  ∀ (a : Addr) (s : State), s.Executing →
    exec (.jmp a) s = .next (if s.pulse = 0 then { s.toBoundary with pc := zext16 a } else s.toBoundary)

/-- INP (R110, R112): E0 sets DSL, enters the transfer and clears `ready`, and the engine stands at E1; the completion loads
DIL and A[15:8], keeps A[7:0] and sets `ready`; then the rest of the phase changes nothing. The pulses, the order and A[7:0]
are the spec's decision D11, `ready` D13, the width of DIL D23. -/
def Obligations.InpInputsUpperByte : Prop :=
  (∀ w : Word, w &&& 0xF000#16 = 0xB000#16 → decodeWord w = .inp (addressField w)) ∧
  (∀ (a : Addr) (s : State), s.Executing →
    exec (.inp a) s = .next (
      if s.pulse = 0 then
        { s.setPosition .execute 1 with dsl := zext16 a, io := .awaitIn, ready := false }
      else s.toBoundary)) ∧
  ∀ (a : Addr) (s : State) (b : Byte), s.Executing → s.pulse = 0 →
    ∃ t u, exec (.inp a) s = .next t ∧ command (.completeInput b) t = (u, .accepted) ∧
      exec (.inp a) u = .next
        { s.toBoundary with
          dsl := zext16 a, dil := BitVec.ofNat 16 b.toNat,
          a := BitVec.ofNat 16 (b.toNat * 256 + s.a.toNat % 256), ready := true }

/-- OUT (R111, R113): E0 sets DSL, E1 sets DOL to A[15:8], enters the transfer and clears `ready`, and the engine stands at E2;
the completion sets `ready`; then the rest of the phase changes nothing. The pulses are the spec's decision D12, `ready` D13,
the width of DOL D23. -/
def Obligations.OutOutputsUpperByte : Prop :=
  (∀ w : Word, w &&& 0xF000#16 = 0xC000#16 → decodeWord w = .out (addressField w)) ∧
  (∀ (a : Addr) (s : State), s.Executing →
    exec (.out a) s = .next (
      if s.pulse = 0 then
        { s.setPosition .execute 2 with
          dsl := zext16 a, dol := BitVec.ofNat 16 (s.a.toNat / 256), io := .awaitOut, ready := false }
      else if s.pulse = 1 then
        { s.setPosition .execute 2 with dol := BitVec.ofNat 16 (s.a.toNat / 256), io := .awaitOut, ready := false }
      else s.toBoundary)) ∧
  ∀ (a : Addr) (s : State), s.Executing → s.pulse = 0 →
    ∃ t u, exec (.out a) s = .next t ∧ command .completeOutput t = (u, .accepted) ∧
      exec (.out a) u = .next
        { s.toBoundary with dsl := zext16 a, dol := BitVec.ofNat 16 (s.a.toNat / 256), ready := true }

/-- NOP (R107): nothing but the position changes, from any pulse. -/
def Obligations.NopDoesNothing : Prop :=
  (∀ w : Word, w &&& 0xF000#16 = 0xF000#16 → decodeWord w = .nop (addressField w)) ∧
  ∀ (a : Addr) (s : State), s.Executing → exec (.nop a) s = .next s.toBoundary

/-! ## Frames: what an instruction leaves unchanged, from every state -/

/-- ADD, XOR, AND and IOR write no register but MAR, MBR, Z and A, no memory, and of the control fields only the position, ADD
also OVF. -/
def Obligations.TwoOperandAluFrame : Prop :=
  ∀ (a : Addr) (i : Instr) (s t : State), i ∈ [.add a, .xor a, .and a, .ior a] → exec i s = .next t →
    RegsKeptBut [.mar, .mbr, .z, .a] s t ∧ MemoryKept s t ∧ HandshakeKept s t ∧ DebugKept s t ∧ t.halted = s.halted ∧
    (i ≠ .add a → t.ovf = s.ovf)

/-- NOT, RAL and CSA write no register but A, no memory, no flag, and of the control fields only the position. -/
def Obligations.AccumulatorFrame : Prop :=
  ∀ (a : Addr) (i : Instr) (s t : State), i ∈ [.not a, .ral a, .csa a] → exec i s = .next t →
    RegsKeptBut [.a] s t ∧ MemoryKept s t ∧ HandshakeKept s t ∧ DebugKept s t ∧ t.halted = s.halted ∧ t.ovf = s.ovf

/-- LDA writes no register but MAR, MBR and A, no memory, no flag, and of the control fields only the position. -/
def Obligations.LoadFrame : Prop :=
  ∀ (a : Addr) (s t : State), exec (.lda a) s = .next t →
    RegsKeptBut [.mar, .mbr, .a] s t ∧ MemoryKept s t ∧ HandshakeKept s t ∧ DebugKept s t ∧ t.halted = s.halted ∧
    t.ovf = s.ovf

/-- STA and SRJ write one word of memory at most: the one MAR addresses at E2, which is the field unless the phase was entered
after E0. It then holds A, for SRJ the PC, or, entered at E2, MBR. STA writes no register but MAR and MBR, SRJ also PC; no
flag, and of the control fields only the position. -/
def Obligations.StoreFrame : Prop :=
  ∀ (a : Addr) (i : Instr) (s t : State), i ∈ [.sta a, .srj a] → exec i s = .next t →
    RegsKeptBut (if i = .sta a then [.mar, .mbr] else [.mar, .mbr, .pc]) s t ∧
    (∀ x, x ≠ (if s.pulse = 0 then a else addressField s.mar) → Memory.read t.ram x = Memory.read s.ram x) ∧
    (s.Executing → Memory.wf s.ram = true → s.pulse.val ≤ 2 →
      Memory.read t.ram (if s.pulse = 0 then a else addressField s.mar) =
        if s.pulse = 2 then s.mbr else if i = .sta a then s.a else s.pc) ∧
    (2 < s.pulse.val → MemoryKept s t) ∧
    HandshakeKept s t ∧ DebugKept s t ∧ t.halted = s.halted ∧ t.ovf = s.ovf

/-- JMA and JMP write no register but PC, HLT and NOP none; none of them writes memory or a flag, and of the control fields
only the position, HLT also `halted`. -/
def Obligations.ControlFrame : Prop :=
  ∀ (a : Addr) (i : Instr) (s t : State), i ∈ [.jma a, .jmp a, .hlt a, .nop a] → exec i s = .next t →
    RegsKeptBut (if i = .jma a ∨ i = .jmp a then [.pc] else []) s t ∧ MemoryKept s t ∧ HandshakeKept s t ∧
    DebugKept s t ∧ t.ovf = s.ovf ∧ (i ≠ .hlt a → t.halted = s.halted)

/-- INP writes no register but DSL, OUT also DOL; they write no memory and not OVF, and of the control fields only the
position, the transfer state and `ready`. -/
def Obligations.InputOutputFrame : Prop :=
  ∀ (a : Addr) (i : Instr) (s t : State), i ∈ [.inp a, .out a] → exec i s = .next t →
    RegsKeptBut (if i = .inp a then [.dsl] else [.dsl, .dol]) s t ∧ MemoryKept s t ∧ DebugKept s t ∧
    t.halted = s.halted ∧ t.ovf = s.ovf

/-! ## Rules of the whole machine -/

/-- No instruction writes SR; of the commands only `WriteRegister` of selector 3 does, and `Construct`, which builds a new
engine; and no instruction but CSA reads it (R16). -/
def Obligations.SwitchesAreTheHosts : Prop :=
  (∀ (i : Instr) (s t : State), exec i s = .next t → t.sr = s.sr) ∧
  (∀ (c : Command) (s : State), (∀ v, c ≠ .writeRegister 3 v) → (∀ cfg, c ≠ .construct cfg) → (command c s).1.sr = s.sr) ∧
  ∀ (i : Instr) (s t : State) (v : Word), (∀ a, i ≠ .csa a) → exec i s = .next t →
    exec i (s.writeReg .sr v) = .next (t.writeReg .sr v)

/-- A step with no host command waiting leaves PC as it was or with bits 15:12 clear (spec/10_state.md section 1; that the
engine clears them is the spec's decision D5, what a step is, is the model's choice, log 1, log 2). -/
def Obligations.EngineKeepsPcEffective : Prop :=
  ∀ s t : State, s.hostQueue = [] → step s = .next t → t.pc = s.pc ∨ t.pc.toNat < 4096

/-- `PowerOff` clears `power` and changes nothing else; from then on no pulse is performed, no transfer is served, and no
command but `Construct` sets `power` again, which builds an engine with reset state (R133). The last clause compares every field
of the engine, and not the model's own `hostQueue`. -/
def Obligations.PowerOffIsFinal : Prop :=
  (∀ s : State, command .powerOff s = ({ s with power := false }, .ok)) ∧
  (∀ (s : State) (b : Byte), s.power = false →
    (stepPulse s).state = s ∧ (runCycle s).state = s ∧ (command (.completeInput b) s).1 = s ∧
      (command .completeOutput s).1 = s) ∧
  (∀ (c : Command) (s : State), (∀ cfg, c ≠ .construct cfg) → s.power = false → (command c s).1.power = false) ∧
  ∀ (cfg : Config.DebugConfig) (s : State) (q : List Command),
    { (command (.construct cfg) s).1 with hostQueue := q } = { State.reset with hostQueue := q }

/-- A pulse changes a word of memory only at E2 of STA or SRJ, and only the word that MAR[11:0] addresses, which then holds MBR
(spec/20_memory.md section 1; the pulse is the spec's decision D3). The last clause is for memories in canonical form. -/
def Obligations.OnlyStoresWriteMemory : Prop :=
  ∀ (s : State) (x : Addr), Memory.read (stepPulse s).state.ram x ≠ Memory.read s.ram x →
    s.phase = .execute ∧ s.pulse = 2 ∧ (opcodeField s.ir = 7#4 ∨ opcodeField s.ir = 8#4) ∧ x = addressField s.mar ∧
      (Memory.wf s.ram = true → Memory.read (stepPulse s).state.ram x = s.mbr)

/-- The host's commands that perform no pulse and build no new engine leave the sequencer's position, and the transfer state
but for a completion that is accepted (spec/10_state.md section 4). -/
def Obligations.HostKeepsThePosition : Prop :=
  ∀ (c : Command) (s : State), c ≠ .stepPulse → c ≠ .runCycle → (∀ n ws, c ≠ .runProgram n ws) → (∀ cfg, c ≠ .construct cfg) →
    (command c s).1.phase = s.phase ∧ (command c s).1.pulse = s.pulse ∧
    ((command c s).1.io = s.io ∨
      (s.io ≠ .idle ∧ (command c s).1.io = .idle ∧ (command c s).2 = .accepted ∧
        (c = .completeOutput ∨ ∃ b, c = .completeInput b)))

/-- The handshake has the four transitions of spec/44_io.md section 1 and no others: each happens on its event, and a
`StepPulse` or a host command that moves the transfer state or the ready flag is one of them; so a step with no command waiting
changes nothing while a transfer is pending (what a step is, is the model's choice, log 1, log 2). The pulses are the spec's
decisions D11 and D12, the ready flag D13, the ignored completions D14. -/
def Obligations.HandshakeTransitions : Prop :=
  (∀ s : State, s.PulseAt .execute 0 → opcodeField s.ir = 11#4 →
    (stepPulse s).state.io = .awaitIn ∧ (stepPulse s).state.ready = false ∧ (stepPulse s).status = .awaitingInput) ∧
  (∀ s : State, s.PulseAt .execute 1 → opcodeField s.ir = 12#4 →
    (stepPulse s).state.io = .awaitOut ∧ (stepPulse s).state.ready = false ∧ (stepPulse s).status = .awaitingOutput) ∧
  (∀ (s : State) (b : Byte), command (.completeInput b) s =
    if s.power = true ∧ s.io = .awaitIn then
      ({ s with
          dil := BitVec.ofNat 16 b.toNat, a := BitVec.ofNat 16 (b.toNat * 256 + s.a.toNat % 256), ready := true,
          io := .idle }, .accepted)
    else (s, .ignored)) ∧
  (∀ s : State, command .completeOutput s =
    if s.power = true ∧ s.io = .awaitOut then ({ s with ready := true, io := .idle }, .accepted) else (s, .ignored)) ∧
  (∀ s : State, (stepPulse s).state.io ≠ s.io ∨ (stepPulse s).state.ready ≠ s.ready →
    (s.PulseAt .execute 0 ∧ opcodeField s.ir = 11#4) ∨ (s.PulseAt .execute 1 ∧ opcodeField s.ir = 12#4)) ∧
  (∀ (c : Command) (s : State), c ≠ .stepPulse → c ≠ .runCycle → (∀ n ws, c ≠ .runProgram n ws) → (∀ cfg, c ≠ .construct cfg) →
    (command c s).1.io ≠ s.io ∨ (command c s).1.ready ≠ s.ready → (command c s).2 = .accepted) ∧
  ∀ s : State, s.Inv → s.io ≠ .idle → s.hostQueue = [] → step s = .next s

/-- The engine never depends on the device latches: two states that differ only in DSL, DIL and DOL step to states that differ
at most there (spec/44_io.md section 3, spec/70_reset_and_hazards.md section 3; what a step is, is the model's choice, log 1,
log 2). -/
def Obligations.DeviceLatchesAreNotRead : Prop :=
  ∀ (s : State) (u v w : Word), s.hostQueue = [] →
    ∃ t t', step s = .next t ∧ step { s with dsl := u, dil := v, dol := w } = .next t' ∧
      { t with dsl := 0#16, dil := 0#16, dol := 0#16 } = { t' with dsl := 0#16, dil := 0#16, dol := 0#16 }

/-- Every step, whatever host commands wait, keeps the invariants of spec/10_state.md section 4 and the canonical forms of
memory and breakpoints (log 3, log 4; what a step is, is the model's choice, log 1, log 2). -/
def Obligations.EveryStepKeepsTheInvariants : Prop := ∀ s t : State, s.Inv → step s = .next t → t.Inv

/-- Every state that some sequence of commands reaches from `Construct` meets the invariants of spec/10_state.md section 4. -/
def Obligations.ReachableStatesMeetTheInvariants : Prop := ∀ s : State, Reachable s → s.Inv

/-- The state after `Construct` meets the invariants. -/
def Obligations.ResetMeetsTheInvariants : Prop := State.reset.Inv ∧ ∀ cfg : Config.DebugConfig, (construct cfg).Inv

/-- What `Construct` leaves (spec/70_reset_and_hazards.md section 1; `io`, `ready`, `halted`, `OVF` and `bpskip` are the spec's
decision D31, the empty host queue is the model's choice, log 2), and what a fresh engine with no program does: HLT. -/
def Obligations.ResetAndFirstCycle : Prop :=
  (∀ cfg : Config.DebugConfig, construct cfg = State.reset) ∧
  (∀ r, State.reset.readReg r = 0x0000#16) ∧ (∀ x, Memory.read State.reset.ram x = 0x0000#16) ∧
  State.reset.phase = .fetch ∧ State.reset.pulse = 0 ∧ State.reset.power = true ∧ State.reset.bp = [] ∧
  State.reset.io = .idle ∧ State.reset.ready = false ∧ State.reset.halted = false ∧ State.reset.ovf = false ∧
  State.reset.bpskip = { valid := false, addr := 0x000#12 } ∧ State.reset.hostQueue = [] ∧
  runCycle State.reset =
    { state := { State.reset with pc := 0x0001#16, halted := true }, status := .halted, overflow := false }

/-! ## Host commands -/

/-- The register port: the ten selectors, what a read answers, what a write changes and that it changes nothing else, and the
six selectors that name no register (spec/40_cycle_engine.md section 5; the selector numbers are the spec's decision D19). -/
def Obligations.RegisterPort : Prop :=
  (List.map regOfSelector [0, 1, 2, 3, 4, 5, 6, 7, 8, 9] =
    [some .pc, some .a, some .z, some .sr, some .mar, some .mbr, some .ir, some .dsl, some .dil, some .dol]) ∧
  (∀ (sel : Fin 16) (v : Word) (s : State), 10 ≤ sel.val →
    command (.readRegister sel) s = (s, .unknownRegister) ∧ command (.writeRegister sel v) s = (s, .unknownRegister)) ∧
  ∀ (sel : Fin 16) (r : Reg) (v : Word) (s : State), regOfSelector sel = some r →
    command (.readRegister sel) s = (s, .value (s.readReg r)) ∧
    ∃ t, command (.writeRegister sel v) s = (t, .ok) ∧ t.readReg r = v ∧ RegsKeptBut [r] s t ∧ t.ram = s.ram ∧
      t.phase = s.phase ∧ t.pulse = s.pulse ∧ HandshakeKept s t ∧ t.halted = s.halted ∧ t.ovf = s.ovf ∧ DebugKept s t

/-- `LoadProgram` of at most 4096 words writes them from address 0 on and changes nothing else; of more it changes nothing and
answers `ProgramTooLarge` (spec/40_cycle_engine.md section 5; that it fails is the spec's decision D15). -/
def Obligations.LoadProgramPlacesTheWords : Prop :=
  ∀ (words : List Word) (s : State), Memory.wf s.ram = true →
    (words.length ≤ 4096 →
      ∃ m, command (.loadProgram words) s = ({ s with ram := m }, .ok) ∧
        (∀ (i : Nat) (h : i < words.length), Memory.read m (BitVec.ofNat 12 i) = words[i]) ∧
        ∀ x : Addr, words.length ≤ x.toNat → Memory.read m x = Memory.read s.ram x) ∧
    (4096 < words.length → command (.loadProgram words) s = (s, .programTooLarge))

/-- `DumpMemory` gives exactly 4096 pairs, address and word, in ascending order; it, `ReadRegister` and `Observe` change nothing
(spec/40_cycle_engine.md section 5; the order is the spec's decision D39). -/
def Obligations.InspectionChangesNothing : Prop :=
  ∀ s : State,
    (dumpMemory s).length = 4096 ∧
    (∀ n, n < 4096 → (dumpMemory s)[n]? = some (n, Memory.read s.ram (BitVec.ofNat 12 n))) ∧
    command .dumpMemory s = (s, .dump (dumpMemory s)) ∧
    (∀ sel, (command (.readRegister sel) s).1 = s) ∧
    command .observe s = (s, .observed { s with hostQueue := [] })

/-- `SetBreakpoint` adds an address of 0 to 4095 to the set, and nothing changes if it was there; any other number is refused
by name; `ClearBreakpoints` empties the set and clears the latch's valid bit (spec/60_exceptions.md section 7; duplicates and
the latch are the spec's decision D32). -/
def Obligations.BreakpointCommands : Prop :=
  (∀ (n : Nat) (s : State), n ≤ 4095 →
    ∃ l, command (.setBreakpoint n) s = ({ s with bp := l }, .ok) ∧
      (∀ x : Addr, x ∈ l ↔ x.toNat = n ∨ x ∈ s.bp) ∧
      (breakpointsWf s.bp = true → BitVec.ofNat 12 n ∈ s.bp → l = s.bp)) ∧
  (∀ (n : Nat) (s : State), 4095 < n → command (.setBreakpoint n) s = (s, .invalidBreakpointAddress)) ∧
  ∀ s : State, command .clearBreakpoints s =
    ({ s with bp := [], bpskip := { valid := false, addr := s.bpskip.addr } }, .ok)

/-- `Resume` clears `halted` if power is on and changes nothing else, so the next cycle of a halted engine fetches the word
after the HLT (spec/40_cycle_engine.md section 5; the command is the spec's decision D8, that a step with no command waiting is
a whole `RunCycle` is the model's choice, log 1, log 2). -/
def Obligations.ResumeEndsTheHalt : Prop :=
  (∀ s : State, s.power = true → command .resume s = ({ s with halted := false }, .ok)) ∧
  ∀ (s : State) (i : Instr), s.Inv → s.power = true → s.halted = true →
    (command .resume s).1.breakpointFires = false → s.hostQueue = [] → Memory.read s.ram s.pcAddr = encode i →
    step (command .resume s).1 = exec i
      { s.setPosition .execute 0 with
        halted := false, mar := s.pc, mbr := encode i, ir := encode i, pc := zext16 (s.pcAddr + 1#12), ovf := false,
        bpskip := { s.bpskip with valid := false } }
end

