-- ==== Sys2Proof/Laws/Fields.lean ====
section
/-! SUPPORT. The fields of a packed word. -/

namespace Sys2Proof

@[simp] theorem opcodeField_packWord (op : BitVec 4) (a : Addr) : opcodeField (packWord op a) = op := by
  unfold opcodeField packWord
  exact BitVec.extractLsb'_append_eq_left

@[simp] theorem addressField_packWord (op : BitVec 4) (a : Addr) : addressField (packWord op a) = a := by
  unfold addressField packWord
  exact BitVec.extractLsb'_append_eq_right

/-- A word is its two fields (R49). -/
theorem packWord_fields (w : Word) : packWord (opcodeField w) (addressField w) = w := by
  refine BitVec.eq_of_toNat_eq ?_
  simp only [packWord, opcodeField, addressField, BitVec.toNat_append, BitVec.extractLsb'_toNat, Nat.shiftRight_zero]
  rw [← Nat.shiftLeft_add_eq_or_of_lt (Nat.mod_lt _ (by decide))]
  have := w.isLt
  simp only [Nat.shiftLeft_eq, Nat.shiftRight_eq_div_pow]
  omega

/-- The address a 12-bit number addresses is itself (R50). -/
@[simp] theorem addressField_zext16 (a : Addr) : addressField (zext16 a) = a := by
  refine BitVec.eq_of_toNat_eq ?_
  have := a.isLt
  simp only [addressField, zext16, BitVec.extractLsb'_toNat, BitVec.toNat_setWidth, Nat.shiftRight_zero]
  omega

/-- A zero-extended address has bits 15:12 clear (R15). -/
@[simp] theorem opcodeField_zext16 (a : Addr) : opcodeField (zext16 a) = 0#4 := by
  refine BitVec.eq_of_toNat_eq ?_
  have := a.isLt
  simp only [opcodeField, zext16, BitVec.extractLsb'_toNat, BitVec.toNat_setWidth, Nat.shiftRight_eq_div_pow]
  rw [BitVec.toNat_ofNat]
  omega

end Sys2Proof
end

