-- ==== Sys2Proof/Laws/Memory.lean ====
section
/-! SUPPORT. The memory operations: what a read gives after a write, and that every operation keeps the canonical form, in
which equal memories are equal lists. -/

namespace Sys2Proof.Machine

/-- The canonical form, cell by cell. -/
theorem memory_wf_cons (k : Nat) (v : Word) (m : Memory) :
    Memory.wf ((k, v) :: m) = true ↔
      (∀ x ∈ m, k < x.1) ∧ k < Config.memWords ∧ v ≠ Config.unwrittenWord ∧ Memory.wf m = true := by
  simp only [Memory.wf, List.pairwise_cons, List.all_cons, Bool.and_eq_true, decide_eq_true_eq]
  tauto

theorem memory_wf_nil : Memory.wf [] = true := by decide

/-- A key below every key of a memory reads as unwritten. -/
theorem lookup_of_below (n : Nat) (m : Memory) (h : ∀ x ∈ m, n < x.1) : Memory.lookup n m = Config.unwrittenWord := by
  induction m with
  | nil => rfl
  | cons c m ih =>
    obtain ⟨k, v⟩ := c
    have hk : n < k := h (k, v) (by simp)
    rw [Memory.lookup, if_neg (by omega)]
    exact ih (fun x hx => h x (by simp [hx]))

/-- The keys after a `put` are the old ones and the new one. -/
theorem mem_put (n : Nat) (v : Word) (m : Memory) (x : Nat × Word) (h : x ∈ Memory.put n v m) : x.1 = n ∨ x ∈ m := by
  induction m with
  | nil =>
    rw [Memory.put] at h
    split at h <;> simp_all
  | cons c m ih =>
    obtain ⟨k, w⟩ := c
    rw [Memory.put] at h
    split at h
    · split at h <;> simp_all
      rcases h with h | h | h <;> simp_all
    · split at h
      · split at h <;> simp_all
        rcases h with h | h <;> simp_all
      · rcases List.mem_cons.mp h with h | h
        · simp_all
        · rcases ih h with h | h <;> simp_all

/-- A read elsewhere does not see a write. -/
theorem lookup_put_ne (n k : Nat) (v : Word) (m : Memory) (h : n ≠ k) :
    Memory.lookup n (Memory.put k v m) = Memory.lookup n m := by
  induction m with
  | nil =>
    rw [Memory.put]
    split
    · rfl
    · simp [Memory.lookup, Ne.symm h]
  | cons c m ih =>
    obtain ⟨j, w⟩ := c
    rw [Memory.put]
    split
    · split
      · rfl
      · rw [Memory.lookup, if_neg (Ne.symm h)]
    · split
      · subst_vars
        split <;> simp [Memory.lookup, Ne.symm h]
      · simp only [Memory.lookup, ih]

/-- A read of the place written gives the word written. -/
theorem lookup_put_same (n : Nat) (v : Word) (m : Memory) (hm : Memory.wf m = true) :
    Memory.lookup n (Memory.put n v m) = v := by
  induction m with
  | nil =>
    rw [Memory.put]
    split
    · simp_all [Memory.lookup]
    · simp [Memory.lookup]
  | cons c m ih =>
    obtain ⟨k, w⟩ := c
    obtain ⟨hk, -, -, hm'⟩ := (memory_wf_cons k w m).mp hm
    rw [Memory.put]
    split
    · split
      · subst_vars
        refine lookup_of_below n _ (fun x hx => ?_)
        rcases List.mem_cons.mp hx with rfl | hx
        · assumption
        · have := hk x hx
          omega
      · simp [Memory.lookup]
    · split
      · subst_vars
        split
        · subst_vars
          exact lookup_of_below _ _ hk
        · simp [Memory.lookup]
      · have hne : k ≠ n := by omega
        simp only [Memory.lookup, if_neg hne, ih hm']

/-- A write keeps the canonical form. -/
theorem put_wf (n : Nat) (v : Word) (m : Memory) (hn : n < Config.memWords) (hm : Memory.wf m = true) :
    Memory.wf (Memory.put n v m) = true := by
  induction m with
  | nil =>
    rw [Memory.put]
    split
    · rfl
    · rw [memory_wf_cons]
      exact ⟨by simp, hn, by assumption, rfl⟩
  | cons c m ih =>
    obtain ⟨k, w⟩ := c
    obtain ⟨hk, hkw, hw, hm'⟩ := (memory_wf_cons k w m).mp hm
    rw [Memory.put]
    split
    · split
      · exact hm
      · rw [memory_wf_cons]
        refine ⟨fun x hx => ?_, hn, by assumption, hm⟩
        rcases List.mem_cons.mp hx with rfl | hx
        · assumption
        · have := hk x hx
          omega
    · split
      · subst_vars
        split
        · exact hm'
        · rw [memory_wf_cons]
          exact ⟨hk, hn, by assumption, hm'⟩
      · rw [memory_wf_cons]
        refine ⟨fun x hx => ?_, hkw, hw, ih hm'⟩
        rcases mem_put n v m x hx with h | h
        · omega
        · exact hk x h

theorem addr_toNat_lt (x : Addr) : x.toNat < Config.memWords := x.isLt

/-- `RAM[x] <- v` then `RAM[x]` (R43). -/
theorem read_write_same (m : Memory) (x : Addr) (v : Word) (hm : Memory.wf m = true) :
    Memory.read (Memory.write m x v) x = v := lookup_put_same x.toNat v m hm

/-- A write leaves every other word alone (R36). -/
theorem read_write_ne (m : Memory) (x y : Addr) (v : Word) (h : y ≠ x) :
    Memory.read (Memory.write m x v) y = Memory.read m y :=
  lookup_put_ne y.toNat x.toNat v m (fun e => h (BitVec.eq_of_toNat_eq e))

theorem write_wf (m : Memory) (x : Addr) (v : Word) (hm : Memory.wf m = true) :
    Memory.wf (Memory.write m x v) = true := put_wf x.toNat v m (addr_toNat_lt x) hm

/-- `LoadProgram` keeps the canonical form. -/
theorem load_wf (n : Nat) (ws : List Word) (m : Memory) (hm : Memory.wf m = true) :
    Memory.wf (Memory.load n ws m) = true := by
  induction ws generalizing n m with
  | nil => exact hm
  | cons w ws ih => exact ih (n + 1) _ (write_wf m _ w hm)

/-- In canonical form, memories that look the same at every key are the same list. -/
theorem wf_ext_lookup (m₁ m₂ : Memory) (h₁ : Memory.wf m₁ = true) (h₂ : Memory.wf m₂ = true)
    (h : ∀ n, Memory.lookup n m₁ = Memory.lookup n m₂) : m₁ = m₂ := by
  induction m₁ generalizing m₂ with
  | nil =>
    cases m₂ with
    | nil => rfl
    | cons c m =>
      obtain ⟨k, v⟩ := c
      have hv := ((memory_wf_cons k v m).mp h₂).2.2.1
      exact absurd (by simpa [Memory.lookup] using (h k).symm) hv
  | cons c m ih =>
    obtain ⟨k, v⟩ := c
    obtain ⟨hk, -, hv, hm⟩ := (memory_wf_cons k v m).mp h₁
    cases m₂ with
    | nil => exact absurd (by simpa [Memory.lookup] using h k) hv
    | cons c' m' =>
      obtain ⟨k', v'⟩ := c'
      obtain ⟨hk', -, hv', hm'⟩ := (memory_wf_cons k' v' m').mp h₂
      have key : k = k' := by
        by_contra hne
        rcases Nat.lt_or_gt_of_ne hne with hlt | hgt
        · have e := h k
          rw [lookup_of_below k ((k', v') :: m') (fun x hx => ?_)] at e
          · exact hv (by simpa [Memory.lookup] using e)
          · rcases List.mem_cons.mp hx with rfl | hx
            · exact hlt
            · exact Nat.lt_trans hlt (hk' x hx)
        · have e := h k'
          rw [lookup_of_below k' ((k, v) :: m) (fun x hx => ?_)] at e
          · exact hv' (by simpa [Memory.lookup] using e.symm)
          · rcases List.mem_cons.mp hx with rfl | hx
            · exact hgt
            · exact Nat.lt_trans hgt (hk x hx)
      subst key
      have hval : v = v' := by simpa [Memory.lookup] using h k
      subst hval
      have tail : m = m' := ih m' hm hm' (fun n => by
        by_cases hn : k = n
        · subst hn
          rw [lookup_of_below k m hk, lookup_of_below k m' hk']
        · simpa [Memory.lookup, hn] using h n)
      rw [tail]

/-- The keys of a memory in canonical form are 12-bit addresses, so a key beyond them reads as unwritten. -/
theorem lookup_of_beyond (n : Nat) (m : Memory) (hm : Memory.wf m = true) (hn : Config.memWords ≤ n) :
    Memory.lookup n m = Config.unwrittenWord := by
  induction m with
  | nil => rfl
  | cons c m ih =>
    obtain ⟨k, v⟩ := c
    obtain ⟨-, hk, -, hm'⟩ := (memory_wf_cons k v m).mp hm
    rw [Memory.lookup, if_neg (by omega), ih hm']

/-- In canonical form, memories that read the same are the same list. -/
theorem wf_ext (m₁ m₂ : Memory) (h₁ : Memory.wf m₁ = true) (h₂ : Memory.wf m₂ = true)
    (h : ∀ x, Memory.read m₁ x = Memory.read m₂ x) : m₁ = m₂ := by
  refine wf_ext_lookup m₁ m₂ h₁ h₂ (fun n => ?_)
  by_cases hn : n < Config.memWords
  · have := h (BitVec.ofNat 12 n)
    simpa [Memory.read, Nat.mod_eq_of_lt (show n < 4096 from hn)] using this
  · rw [lookup_of_beyond n m₁ h₁ (by omega), lookup_of_beyond n m₂ h₂ (by omega)]

/-- What is in the breakpoint set after an address is added (R130). -/
theorem mem_insertBreakpoint (x y : Addr) (l : List Addr) : y ∈ insertBreakpoint x l ↔ y = x ∨ y ∈ l := by
  induction l with
  | nil => simp [insertBreakpoint]
  | cons b l ih =>
    rw [insertBreakpoint]
    split
    · simp
    · split
      · subst_vars
        simp
      · simp only [List.mem_cons, ih]
        tauto

/-- The breakpoint set keeps its canonical form. -/
theorem insertBreakpoint_wf (x : Addr) (l : List Addr) (h : breakpointsWf l = true) :
    breakpointsWf (insertBreakpoint x l) = true := by
  simp only [breakpointsWf, decide_eq_true_eq] at h ⊢
  induction l with
  | nil => simp [insertBreakpoint]
  | cons b l ih =>
    rw [List.pairwise_cons] at h
    rw [insertBreakpoint]
    split
    · refine List.pairwise_cons.mpr ⟨fun y hy => ?_, List.pairwise_cons.mpr h⟩
      rcases List.mem_cons.mp hy with rfl | hy
      · assumption
      · have := h.1 y hy
        omega
    · split
      · exact List.pairwise_cons.mpr h
      · rename_i hlt hne
        refine List.pairwise_cons.mpr ⟨fun y hy => ?_, ih h.2⟩
        rcases (mem_insertBreakpoint x y l).mp hy with rfl | hy
        · have : b.toNat ≠ y.toNat := fun e => hne (BitVec.eq_of_toNat_eq e.symm)
          omega
        · exact h.1 y hy

end Sys2Proof.Machine
end

