-- ==== Sys2Proof/Laws/PerInstr.lean ====
section
/-! SUPPORT. For each instruction: the fields of its word, its opcode's entry in the map, and that it is well formed
(spec/30_encoding.md R49, R53, R54). -/

namespace Sys2Proof.Laws.Layout

/-- The word's opcode field selects the instruction's mnemonic in the map, its low 12 bits are the instruction's field, and
no field value makes the instruction ill formed. -/
def Statement (i : Instr) : Prop :=
  opcodeMap.get (opcodeField (encode i)).toFin = i.mnemonic ∧ addressField (encode i) = i.field ∧
    i.mnemonic.instr i.field = i ∧ i.wellFormed = true

/-- The layout of a word packed from an opcode and a field. -/
theorem of_packWord (i : Instr) (op : BitVec 4) (he : encode i = packWord op i.field)
    (hm : opcodeMap.get op.toFin = i.mnemonic) (hi : i.mnemonic.instr i.field = i) (hw : i.wellFormed = true) :
    Statement i := by
  refine ⟨?_, ?_, hi, hw⟩
  · rw [he, opcodeField_packWord, hm]
  · rw [he, addressField_packWord]

theorem hlt (a : Addr) : Statement (.hlt a) := of_packWord _ 0x0#4 rfl rfl rfl rfl
theorem add (a : Addr) : Statement (.add a) := of_packWord _ 0x1#4 rfl rfl rfl rfl
theorem xor (a : Addr) : Statement (.xor a) := of_packWord _ 0x2#4 rfl rfl rfl rfl
theorem and (a : Addr) : Statement (.and a) := of_packWord _ 0x3#4 rfl rfl rfl rfl
theorem ior (a : Addr) : Statement (.ior a) := of_packWord _ 0x4#4 rfl rfl rfl rfl
theorem not (a : Addr) : Statement (.not a) := of_packWord _ 0x5#4 rfl rfl rfl rfl
theorem lda (a : Addr) : Statement (.lda a) := of_packWord _ 0x6#4 rfl rfl rfl rfl
theorem sta (a : Addr) : Statement (.sta a) := of_packWord _ 0x7#4 rfl rfl rfl rfl
theorem srj (a : Addr) : Statement (.srj a) := of_packWord _ 0x8#4 rfl rfl rfl rfl
theorem jma (a : Addr) : Statement (.jma a) := of_packWord _ 0x9#4 rfl rfl rfl rfl
theorem jmp (a : Addr) : Statement (.jmp a) := of_packWord _ 0xA#4 rfl rfl rfl rfl
theorem inp (a : Addr) : Statement (.inp a) := of_packWord _ 0xB#4 rfl rfl rfl rfl
theorem out (a : Addr) : Statement (.out a) := of_packWord _ 0xC#4 rfl rfl rfl rfl
theorem ral (a : Addr) : Statement (.ral a) := of_packWord _ 0xD#4 rfl rfl rfl rfl
theorem csa (a : Addr) : Statement (.csa a) := of_packWord _ 0xE#4 rfl rfl rfl rfl
theorem nop (a : Addr) : Statement (.nop a) := of_packWord _ 0xF#4 rfl rfl rfl rfl

end Sys2Proof.Laws.Layout
end

