-- ==== Sys2Proof/Laws/State.lean ====
section
/-! SUPPORT. One lemma per field per update of the state, so that no later proof unfolds a record update. -/

namespace Sys2Proof.Machine

variable (s : State)

/-! ## writeReg -/

@[simp] theorem writeReg_pc (r : Reg) (v : Word) : (s.writeReg r v).pc = if r = .pc then v else s.pc := by cases r <;> rfl
@[simp] theorem writeReg_a (r : Reg) (v : Word) : (s.writeReg r v).a = if r = .a then v else s.a := by cases r <;> rfl
@[simp] theorem writeReg_z (r : Reg) (v : Word) : (s.writeReg r v).z = if r = .z then v else s.z := by cases r <;> rfl
@[simp] theorem writeReg_sr (r : Reg) (v : Word) : (s.writeReg r v).sr = if r = .sr then v else s.sr := by cases r <;> rfl
@[simp] theorem writeReg_mar (r : Reg) (v : Word) : (s.writeReg r v).mar = if r = .mar then v else s.mar := by cases r <;> rfl
@[simp] theorem writeReg_mbr (r : Reg) (v : Word) : (s.writeReg r v).mbr = if r = .mbr then v else s.mbr := by cases r <;> rfl
@[simp] theorem writeReg_ir (r : Reg) (v : Word) : (s.writeReg r v).ir = if r = .ir then v else s.ir := by cases r <;> rfl
@[simp] theorem writeReg_dsl (r : Reg) (v : Word) : (s.writeReg r v).dsl = if r = .dsl then v else s.dsl := by cases r <;> rfl
@[simp] theorem writeReg_dil (r : Reg) (v : Word) : (s.writeReg r v).dil = if r = .dil then v else s.dil := by cases r <;> rfl
@[simp] theorem writeReg_dol (r : Reg) (v : Word) : (s.writeReg r v).dol = if r = .dol then v else s.dol := by cases r <;> rfl
@[simp] theorem writeReg_ram (r : Reg) (v : Word) : (s.writeReg r v).ram = s.ram := by cases r <;> rfl
@[simp] theorem writeReg_phase (r : Reg) (v : Word) : (s.writeReg r v).phase = s.phase := by cases r <;> rfl
@[simp] theorem writeReg_pulse (r : Reg) (v : Word) : (s.writeReg r v).pulse = s.pulse := by cases r <;> rfl
@[simp] theorem writeReg_power (r : Reg) (v : Word) : (s.writeReg r v).power = s.power := by cases r <;> rfl
@[simp] theorem writeReg_bp (r : Reg) (v : Word) : (s.writeReg r v).bp = s.bp := by cases r <;> rfl
@[simp] theorem writeReg_io (r : Reg) (v : Word) : (s.writeReg r v).io = s.io := by cases r <;> rfl
@[simp] theorem writeReg_ready (r : Reg) (v : Word) : (s.writeReg r v).ready = s.ready := by cases r <;> rfl
@[simp] theorem writeReg_halted (r : Reg) (v : Word) : (s.writeReg r v).halted = s.halted := by cases r <;> rfl
@[simp] theorem writeReg_ovf (r : Reg) (v : Word) : (s.writeReg r v).ovf = s.ovf := by cases r <;> rfl
@[simp] theorem writeReg_bpskip (r : Reg) (v : Word) : (s.writeReg r v).bpskip = s.bpskip := by cases r <;> rfl
@[simp] theorem writeReg_hostQueue (r : Reg) (v : Word) : (s.writeReg r v).hostQueue = s.hostQueue := by cases r <;> rfl

theorem readReg_writeReg (r q : Reg) (v : Word) : (s.writeReg r v).readReg q = if r = q then v else s.readReg q := by
  cases r <;> cases q <;> rfl

@[simp] theorem readReg_writeReg_same (r : Reg) (v : Word) : (s.writeReg r v).readReg r = v := by cases r <;> rfl

theorem readReg_writeReg_ne (r q : Reg) (v : Word) (h : q ≠ r) : (s.writeReg r v).readReg q = s.readReg q := by
  rw [readReg_writeReg, if_neg (Ne.symm h)]

@[simp] theorem writeReg_readReg (r : Reg) : s.writeReg r (s.readReg r) = s := by cases r <;> rfl

/-! ## setRam -/

@[simp] theorem setRam_pc (m : Memory) : (s.setRam m).pc = s.pc := rfl
@[simp] theorem setRam_a (m : Memory) : (s.setRam m).a = s.a := rfl
@[simp] theorem setRam_z (m : Memory) : (s.setRam m).z = s.z := rfl
@[simp] theorem setRam_sr (m : Memory) : (s.setRam m).sr = s.sr := rfl
@[simp] theorem setRam_mar (m : Memory) : (s.setRam m).mar = s.mar := rfl
@[simp] theorem setRam_mbr (m : Memory) : (s.setRam m).mbr = s.mbr := rfl
@[simp] theorem setRam_ir (m : Memory) : (s.setRam m).ir = s.ir := rfl
@[simp] theorem setRam_dsl (m : Memory) : (s.setRam m).dsl = s.dsl := rfl
@[simp] theorem setRam_dil (m : Memory) : (s.setRam m).dil = s.dil := rfl
@[simp] theorem setRam_dol (m : Memory) : (s.setRam m).dol = s.dol := rfl
@[simp] theorem setRam_ram (m : Memory) : (s.setRam m).ram = m := rfl
@[simp] theorem setRam_phase (m : Memory) : (s.setRam m).phase = s.phase := rfl
@[simp] theorem setRam_pulse (m : Memory) : (s.setRam m).pulse = s.pulse := rfl
@[simp] theorem setRam_power (m : Memory) : (s.setRam m).power = s.power := rfl
@[simp] theorem setRam_bp (m : Memory) : (s.setRam m).bp = s.bp := rfl
@[simp] theorem setRam_io (m : Memory) : (s.setRam m).io = s.io := rfl
@[simp] theorem setRam_ready (m : Memory) : (s.setRam m).ready = s.ready := rfl
@[simp] theorem setRam_halted (m : Memory) : (s.setRam m).halted = s.halted := rfl
@[simp] theorem setRam_ovf (m : Memory) : (s.setRam m).ovf = s.ovf := rfl
@[simp] theorem setRam_bpskip (m : Memory) : (s.setRam m).bpskip = s.bpskip := rfl
@[simp] theorem setRam_hostQueue (m : Memory) : (s.setRam m).hostQueue = s.hostQueue := rfl
@[simp] theorem setRam_readReg (m : Memory) (r : Reg) : (s.setRam m).readReg r = s.readReg r := by cases r <;> rfl

/-! ## setOvf -/

@[simp] theorem setOvf_pc (b : Bool) : (s.setOvf b).pc = s.pc := rfl
@[simp] theorem setOvf_a (b : Bool) : (s.setOvf b).a = s.a := rfl
@[simp] theorem setOvf_z (b : Bool) : (s.setOvf b).z = s.z := rfl
@[simp] theorem setOvf_sr (b : Bool) : (s.setOvf b).sr = s.sr := rfl
@[simp] theorem setOvf_mar (b : Bool) : (s.setOvf b).mar = s.mar := rfl
@[simp] theorem setOvf_mbr (b : Bool) : (s.setOvf b).mbr = s.mbr := rfl
@[simp] theorem setOvf_ir (b : Bool) : (s.setOvf b).ir = s.ir := rfl
@[simp] theorem setOvf_dsl (b : Bool) : (s.setOvf b).dsl = s.dsl := rfl
@[simp] theorem setOvf_dil (b : Bool) : (s.setOvf b).dil = s.dil := rfl
@[simp] theorem setOvf_dol (b : Bool) : (s.setOvf b).dol = s.dol := rfl
@[simp] theorem setOvf_ram (b : Bool) : (s.setOvf b).ram = s.ram := rfl
@[simp] theorem setOvf_phase (b : Bool) : (s.setOvf b).phase = s.phase := rfl
@[simp] theorem setOvf_pulse (b : Bool) : (s.setOvf b).pulse = s.pulse := rfl
@[simp] theorem setOvf_power (b : Bool) : (s.setOvf b).power = s.power := rfl
@[simp] theorem setOvf_bp (b : Bool) : (s.setOvf b).bp = s.bp := rfl
@[simp] theorem setOvf_io (b : Bool) : (s.setOvf b).io = s.io := rfl
@[simp] theorem setOvf_ready (b : Bool) : (s.setOvf b).ready = s.ready := rfl
@[simp] theorem setOvf_halted (b : Bool) : (s.setOvf b).halted = s.halted := rfl
@[simp] theorem setOvf_ovf (b : Bool) : (s.setOvf b).ovf = b := rfl
@[simp] theorem setOvf_bpskip (b : Bool) : (s.setOvf b).bpskip = s.bpskip := rfl
@[simp] theorem setOvf_hostQueue (b : Bool) : (s.setOvf b).hostQueue = s.hostQueue := rfl
@[simp] theorem setOvf_readReg (b : Bool) (r : Reg) : (s.setOvf b).readReg r = s.readReg r := by cases r <;> rfl

/-! ## setHalted -/

@[simp] theorem setHalted_pc (b : Bool) : (s.setHalted b).pc = s.pc := rfl
@[simp] theorem setHalted_a (b : Bool) : (s.setHalted b).a = s.a := rfl
@[simp] theorem setHalted_z (b : Bool) : (s.setHalted b).z = s.z := rfl
@[simp] theorem setHalted_sr (b : Bool) : (s.setHalted b).sr = s.sr := rfl
@[simp] theorem setHalted_mar (b : Bool) : (s.setHalted b).mar = s.mar := rfl
@[simp] theorem setHalted_mbr (b : Bool) : (s.setHalted b).mbr = s.mbr := rfl
@[simp] theorem setHalted_ir (b : Bool) : (s.setHalted b).ir = s.ir := rfl
@[simp] theorem setHalted_dsl (b : Bool) : (s.setHalted b).dsl = s.dsl := rfl
@[simp] theorem setHalted_dil (b : Bool) : (s.setHalted b).dil = s.dil := rfl
@[simp] theorem setHalted_dol (b : Bool) : (s.setHalted b).dol = s.dol := rfl
@[simp] theorem setHalted_ram (b : Bool) : (s.setHalted b).ram = s.ram := rfl
@[simp] theorem setHalted_phase (b : Bool) : (s.setHalted b).phase = s.phase := rfl
@[simp] theorem setHalted_pulse (b : Bool) : (s.setHalted b).pulse = s.pulse := rfl
@[simp] theorem setHalted_power (b : Bool) : (s.setHalted b).power = s.power := rfl
@[simp] theorem setHalted_bp (b : Bool) : (s.setHalted b).bp = s.bp := rfl
@[simp] theorem setHalted_io (b : Bool) : (s.setHalted b).io = s.io := rfl
@[simp] theorem setHalted_ready (b : Bool) : (s.setHalted b).ready = s.ready := rfl
@[simp] theorem setHalted_halted (b : Bool) : (s.setHalted b).halted = b := rfl
@[simp] theorem setHalted_ovf (b : Bool) : (s.setHalted b).ovf = s.ovf := rfl
@[simp] theorem setHalted_bpskip (b : Bool) : (s.setHalted b).bpskip = s.bpskip := rfl
@[simp] theorem setHalted_hostQueue (b : Bool) : (s.setHalted b).hostQueue = s.hostQueue := rfl
@[simp] theorem setHalted_readReg (b : Bool) (r : Reg) : (s.setHalted b).readReg r = s.readReg r := by cases r <;> rfl

/-! ## setPower -/

@[simp] theorem setPower_pc (b : Bool) : (s.setPower b).pc = s.pc := rfl
@[simp] theorem setPower_a (b : Bool) : (s.setPower b).a = s.a := rfl
@[simp] theorem setPower_z (b : Bool) : (s.setPower b).z = s.z := rfl
@[simp] theorem setPower_sr (b : Bool) : (s.setPower b).sr = s.sr := rfl
@[simp] theorem setPower_mar (b : Bool) : (s.setPower b).mar = s.mar := rfl
@[simp] theorem setPower_mbr (b : Bool) : (s.setPower b).mbr = s.mbr := rfl
@[simp] theorem setPower_ir (b : Bool) : (s.setPower b).ir = s.ir := rfl
@[simp] theorem setPower_dsl (b : Bool) : (s.setPower b).dsl = s.dsl := rfl
@[simp] theorem setPower_dil (b : Bool) : (s.setPower b).dil = s.dil := rfl
@[simp] theorem setPower_dol (b : Bool) : (s.setPower b).dol = s.dol := rfl
@[simp] theorem setPower_ram (b : Bool) : (s.setPower b).ram = s.ram := rfl
@[simp] theorem setPower_phase (b : Bool) : (s.setPower b).phase = s.phase := rfl
@[simp] theorem setPower_pulse (b : Bool) : (s.setPower b).pulse = s.pulse := rfl
@[simp] theorem setPower_power (b : Bool) : (s.setPower b).power = b := rfl
@[simp] theorem setPower_bp (b : Bool) : (s.setPower b).bp = s.bp := rfl
@[simp] theorem setPower_io (b : Bool) : (s.setPower b).io = s.io := rfl
@[simp] theorem setPower_ready (b : Bool) : (s.setPower b).ready = s.ready := rfl
@[simp] theorem setPower_halted (b : Bool) : (s.setPower b).halted = s.halted := rfl
@[simp] theorem setPower_ovf (b : Bool) : (s.setPower b).ovf = s.ovf := rfl
@[simp] theorem setPower_bpskip (b : Bool) : (s.setPower b).bpskip = s.bpskip := rfl
@[simp] theorem setPower_hostQueue (b : Bool) : (s.setPower b).hostQueue = s.hostQueue := rfl
@[simp] theorem setPower_readReg (b : Bool) (r : Reg) : (s.setPower b).readReg r = s.readReg r := by cases r <;> rfl

/-! ## setBypass -/

@[simp] theorem setBypass_pc (l : Bypass) : (s.setBypass l).pc = s.pc := rfl
@[simp] theorem setBypass_a (l : Bypass) : (s.setBypass l).a = s.a := rfl
@[simp] theorem setBypass_z (l : Bypass) : (s.setBypass l).z = s.z := rfl
@[simp] theorem setBypass_sr (l : Bypass) : (s.setBypass l).sr = s.sr := rfl
@[simp] theorem setBypass_mar (l : Bypass) : (s.setBypass l).mar = s.mar := rfl
@[simp] theorem setBypass_mbr (l : Bypass) : (s.setBypass l).mbr = s.mbr := rfl
@[simp] theorem setBypass_ir (l : Bypass) : (s.setBypass l).ir = s.ir := rfl
@[simp] theorem setBypass_dsl (l : Bypass) : (s.setBypass l).dsl = s.dsl := rfl
@[simp] theorem setBypass_dil (l : Bypass) : (s.setBypass l).dil = s.dil := rfl
@[simp] theorem setBypass_dol (l : Bypass) : (s.setBypass l).dol = s.dol := rfl
@[simp] theorem setBypass_ram (l : Bypass) : (s.setBypass l).ram = s.ram := rfl
@[simp] theorem setBypass_phase (l : Bypass) : (s.setBypass l).phase = s.phase := rfl
@[simp] theorem setBypass_pulse (l : Bypass) : (s.setBypass l).pulse = s.pulse := rfl
@[simp] theorem setBypass_power (l : Bypass) : (s.setBypass l).power = s.power := rfl
@[simp] theorem setBypass_bp (l : Bypass) : (s.setBypass l).bp = s.bp := rfl
@[simp] theorem setBypass_io (l : Bypass) : (s.setBypass l).io = s.io := rfl
@[simp] theorem setBypass_ready (l : Bypass) : (s.setBypass l).ready = s.ready := rfl
@[simp] theorem setBypass_halted (l : Bypass) : (s.setBypass l).halted = s.halted := rfl
@[simp] theorem setBypass_ovf (l : Bypass) : (s.setBypass l).ovf = s.ovf := rfl
@[simp] theorem setBypass_bpskip (l : Bypass) : (s.setBypass l).bpskip = l := rfl
@[simp] theorem setBypass_hostQueue (l : Bypass) : (s.setBypass l).hostQueue = s.hostQueue := rfl
@[simp] theorem setBypass_readReg (l : Bypass) (r : Reg) : (s.setBypass l).readReg r = s.readReg r := by cases r <;> rfl

/-! ## setBreakpoints -/

@[simp] theorem setBreakpoints_pc (l : List Addr) : (s.setBreakpoints l).pc = s.pc := rfl
@[simp] theorem setBreakpoints_a (l : List Addr) : (s.setBreakpoints l).a = s.a := rfl
@[simp] theorem setBreakpoints_z (l : List Addr) : (s.setBreakpoints l).z = s.z := rfl
@[simp] theorem setBreakpoints_sr (l : List Addr) : (s.setBreakpoints l).sr = s.sr := rfl
@[simp] theorem setBreakpoints_mar (l : List Addr) : (s.setBreakpoints l).mar = s.mar := rfl
@[simp] theorem setBreakpoints_mbr (l : List Addr) : (s.setBreakpoints l).mbr = s.mbr := rfl
@[simp] theorem setBreakpoints_ir (l : List Addr) : (s.setBreakpoints l).ir = s.ir := rfl
@[simp] theorem setBreakpoints_dsl (l : List Addr) : (s.setBreakpoints l).dsl = s.dsl := rfl
@[simp] theorem setBreakpoints_dil (l : List Addr) : (s.setBreakpoints l).dil = s.dil := rfl
@[simp] theorem setBreakpoints_dol (l : List Addr) : (s.setBreakpoints l).dol = s.dol := rfl
@[simp] theorem setBreakpoints_ram (l : List Addr) : (s.setBreakpoints l).ram = s.ram := rfl
@[simp] theorem setBreakpoints_phase (l : List Addr) : (s.setBreakpoints l).phase = s.phase := rfl
@[simp] theorem setBreakpoints_pulse (l : List Addr) : (s.setBreakpoints l).pulse = s.pulse := rfl
@[simp] theorem setBreakpoints_power (l : List Addr) : (s.setBreakpoints l).power = s.power := rfl
@[simp] theorem setBreakpoints_bp (l : List Addr) : (s.setBreakpoints l).bp = l := rfl
@[simp] theorem setBreakpoints_io (l : List Addr) : (s.setBreakpoints l).io = s.io := rfl
@[simp] theorem setBreakpoints_ready (l : List Addr) : (s.setBreakpoints l).ready = s.ready := rfl
@[simp] theorem setBreakpoints_halted (l : List Addr) : (s.setBreakpoints l).halted = s.halted := rfl
@[simp] theorem setBreakpoints_ovf (l : List Addr) : (s.setBreakpoints l).ovf = s.ovf := rfl
@[simp] theorem setBreakpoints_bpskip (l : List Addr) : (s.setBreakpoints l).bpskip = s.bpskip := rfl
@[simp] theorem setBreakpoints_hostQueue (l : List Addr) : (s.setBreakpoints l).hostQueue = s.hostQueue := rfl
@[simp] theorem setBreakpoints_readReg (l : List Addr) (r : Reg) : (s.setBreakpoints l).readReg r = s.readReg r := by cases r <;> rfl

/-! ## setHostQueue -/

@[simp] theorem setHostQueue_pc (q : List Command) : (s.setHostQueue q).pc = s.pc := rfl
@[simp] theorem setHostQueue_a (q : List Command) : (s.setHostQueue q).a = s.a := rfl
@[simp] theorem setHostQueue_z (q : List Command) : (s.setHostQueue q).z = s.z := rfl
@[simp] theorem setHostQueue_sr (q : List Command) : (s.setHostQueue q).sr = s.sr := rfl
@[simp] theorem setHostQueue_mar (q : List Command) : (s.setHostQueue q).mar = s.mar := rfl
@[simp] theorem setHostQueue_mbr (q : List Command) : (s.setHostQueue q).mbr = s.mbr := rfl
@[simp] theorem setHostQueue_ir (q : List Command) : (s.setHostQueue q).ir = s.ir := rfl
@[simp] theorem setHostQueue_dsl (q : List Command) : (s.setHostQueue q).dsl = s.dsl := rfl
@[simp] theorem setHostQueue_dil (q : List Command) : (s.setHostQueue q).dil = s.dil := rfl
@[simp] theorem setHostQueue_dol (q : List Command) : (s.setHostQueue q).dol = s.dol := rfl
@[simp] theorem setHostQueue_ram (q : List Command) : (s.setHostQueue q).ram = s.ram := rfl
@[simp] theorem setHostQueue_phase (q : List Command) : (s.setHostQueue q).phase = s.phase := rfl
@[simp] theorem setHostQueue_pulse (q : List Command) : (s.setHostQueue q).pulse = s.pulse := rfl
@[simp] theorem setHostQueue_power (q : List Command) : (s.setHostQueue q).power = s.power := rfl
@[simp] theorem setHostQueue_bp (q : List Command) : (s.setHostQueue q).bp = s.bp := rfl
@[simp] theorem setHostQueue_io (q : List Command) : (s.setHostQueue q).io = s.io := rfl
@[simp] theorem setHostQueue_ready (q : List Command) : (s.setHostQueue q).ready = s.ready := rfl
@[simp] theorem setHostQueue_halted (q : List Command) : (s.setHostQueue q).halted = s.halted := rfl
@[simp] theorem setHostQueue_ovf (q : List Command) : (s.setHostQueue q).ovf = s.ovf := rfl
@[simp] theorem setHostQueue_bpskip (q : List Command) : (s.setHostQueue q).bpskip = s.bpskip := rfl
@[simp] theorem setHostQueue_hostQueue (q : List Command) : (s.setHostQueue q).hostQueue = q := rfl
@[simp] theorem setHostQueue_readReg (q : List Command) (r : Reg) : (s.setHostQueue q).readReg r = s.readReg r := by cases r <;> rfl

/-! ## setHandshake -/

@[simp] theorem setHandshake_pc (x : IoState) (b : Bool) : (s.setHandshake x b).pc = s.pc := rfl
@[simp] theorem setHandshake_a (x : IoState) (b : Bool) : (s.setHandshake x b).a = s.a := rfl
@[simp] theorem setHandshake_z (x : IoState) (b : Bool) : (s.setHandshake x b).z = s.z := rfl
@[simp] theorem setHandshake_sr (x : IoState) (b : Bool) : (s.setHandshake x b).sr = s.sr := rfl
@[simp] theorem setHandshake_mar (x : IoState) (b : Bool) : (s.setHandshake x b).mar = s.mar := rfl
@[simp] theorem setHandshake_mbr (x : IoState) (b : Bool) : (s.setHandshake x b).mbr = s.mbr := rfl
@[simp] theorem setHandshake_ir (x : IoState) (b : Bool) : (s.setHandshake x b).ir = s.ir := rfl
@[simp] theorem setHandshake_dsl (x : IoState) (b : Bool) : (s.setHandshake x b).dsl = s.dsl := rfl
@[simp] theorem setHandshake_dil (x : IoState) (b : Bool) : (s.setHandshake x b).dil = s.dil := rfl
@[simp] theorem setHandshake_dol (x : IoState) (b : Bool) : (s.setHandshake x b).dol = s.dol := rfl
@[simp] theorem setHandshake_ram (x : IoState) (b : Bool) : (s.setHandshake x b).ram = s.ram := rfl
@[simp] theorem setHandshake_phase (x : IoState) (b : Bool) : (s.setHandshake x b).phase = s.phase := rfl
@[simp] theorem setHandshake_pulse (x : IoState) (b : Bool) : (s.setHandshake x b).pulse = s.pulse := rfl
@[simp] theorem setHandshake_power (x : IoState) (b : Bool) : (s.setHandshake x b).power = s.power := rfl
@[simp] theorem setHandshake_bp (x : IoState) (b : Bool) : (s.setHandshake x b).bp = s.bp := rfl
@[simp] theorem setHandshake_io (x : IoState) (b : Bool) : (s.setHandshake x b).io = x := rfl
@[simp] theorem setHandshake_ready (x : IoState) (b : Bool) : (s.setHandshake x b).ready = b := rfl
@[simp] theorem setHandshake_halted (x : IoState) (b : Bool) : (s.setHandshake x b).halted = s.halted := rfl
@[simp] theorem setHandshake_ovf (x : IoState) (b : Bool) : (s.setHandshake x b).ovf = s.ovf := rfl
@[simp] theorem setHandshake_bpskip (x : IoState) (b : Bool) : (s.setHandshake x b).bpskip = s.bpskip := rfl
@[simp] theorem setHandshake_hostQueue (x : IoState) (b : Bool) : (s.setHandshake x b).hostQueue = s.hostQueue := rfl
@[simp] theorem setHandshake_readReg (x : IoState) (b : Bool) (r : Reg) : (s.setHandshake x b).readReg r = s.readReg r := by cases r <;> rfl

/-! ## setPosition -/

@[simp] theorem setPosition_pc (ph : Phase) (p : Fin 8) : (s.setPosition ph p).pc = s.pc := rfl
@[simp] theorem setPosition_a (ph : Phase) (p : Fin 8) : (s.setPosition ph p).a = s.a := rfl
@[simp] theorem setPosition_z (ph : Phase) (p : Fin 8) : (s.setPosition ph p).z = s.z := rfl
@[simp] theorem setPosition_sr (ph : Phase) (p : Fin 8) : (s.setPosition ph p).sr = s.sr := rfl
@[simp] theorem setPosition_mar (ph : Phase) (p : Fin 8) : (s.setPosition ph p).mar = s.mar := rfl
@[simp] theorem setPosition_mbr (ph : Phase) (p : Fin 8) : (s.setPosition ph p).mbr = s.mbr := rfl
@[simp] theorem setPosition_ir (ph : Phase) (p : Fin 8) : (s.setPosition ph p).ir = s.ir := rfl
@[simp] theorem setPosition_dsl (ph : Phase) (p : Fin 8) : (s.setPosition ph p).dsl = s.dsl := rfl
@[simp] theorem setPosition_dil (ph : Phase) (p : Fin 8) : (s.setPosition ph p).dil = s.dil := rfl
@[simp] theorem setPosition_dol (ph : Phase) (p : Fin 8) : (s.setPosition ph p).dol = s.dol := rfl
@[simp] theorem setPosition_ram (ph : Phase) (p : Fin 8) : (s.setPosition ph p).ram = s.ram := rfl
@[simp] theorem setPosition_phase (ph : Phase) (p : Fin 8) : (s.setPosition ph p).phase = ph := rfl
@[simp] theorem setPosition_pulse (ph : Phase) (p : Fin 8) : (s.setPosition ph p).pulse = p := rfl
@[simp] theorem setPosition_power (ph : Phase) (p : Fin 8) : (s.setPosition ph p).power = s.power := rfl
@[simp] theorem setPosition_bp (ph : Phase) (p : Fin 8) : (s.setPosition ph p).bp = s.bp := rfl
@[simp] theorem setPosition_io (ph : Phase) (p : Fin 8) : (s.setPosition ph p).io = s.io := rfl
@[simp] theorem setPosition_ready (ph : Phase) (p : Fin 8) : (s.setPosition ph p).ready = s.ready := rfl
@[simp] theorem setPosition_halted (ph : Phase) (p : Fin 8) : (s.setPosition ph p).halted = s.halted := rfl
@[simp] theorem setPosition_ovf (ph : Phase) (p : Fin 8) : (s.setPosition ph p).ovf = s.ovf := rfl
@[simp] theorem setPosition_bpskip (ph : Phase) (p : Fin 8) : (s.setPosition ph p).bpskip = s.bpskip := rfl
@[simp] theorem setPosition_hostQueue (ph : Phase) (p : Fin 8) : (s.setPosition ph p).hostQueue = s.hostQueue := rfl
@[simp] theorem setPosition_readReg (ph : Phase) (p : Fin 8) (r : Reg) : (s.setPosition ph p).readReg r = s.readReg r := by cases r <;> rfl

end Sys2Proof.Machine
end

