-- ==== Sys2Proof/Laws/Sequencer.lean ====
section
/-! SUPPORT. What the shared operations of the sequencer do: the loops of pulses, the advance, the table cells. -/

namespace Sys2Proof.Machine

/-! ## The advance (R60) -/

@[simp] theorem advance_readReg (s : State) (r : Reg) : s.advance.readReg r = s.readReg r := by simp [State.advance]
@[simp] theorem advance_pc (s : State) : s.advance.pc = s.pc := rfl
@[simp] theorem advance_a (s : State) : s.advance.a = s.a := rfl
@[simp] theorem advance_z (s : State) : s.advance.z = s.z := rfl
@[simp] theorem advance_sr (s : State) : s.advance.sr = s.sr := rfl
@[simp] theorem advance_mar (s : State) : s.advance.mar = s.mar := rfl
@[simp] theorem advance_mbr (s : State) : s.advance.mbr = s.mbr := rfl
@[simp] theorem advance_ir (s : State) : s.advance.ir = s.ir := rfl
@[simp] theorem advance_dsl (s : State) : s.advance.dsl = s.dsl := rfl
@[simp] theorem advance_dil (s : State) : s.advance.dil = s.dil := rfl
@[simp] theorem advance_dol (s : State) : s.advance.dol = s.dol := rfl
@[simp] theorem advance_ram (s : State) : s.advance.ram = s.ram := rfl
@[simp] theorem advance_phase (s : State) : s.advance.phase = if s.pulse = 7 then s.phase.flip else s.phase := rfl
@[simp] theorem advance_pulse (s : State) : s.advance.pulse = s.pulse + 1 := rfl
@[simp] theorem advance_power (s : State) : s.advance.power = s.power := rfl
@[simp] theorem advance_bp (s : State) : s.advance.bp = s.bp := rfl
@[simp] theorem advance_io (s : State) : s.advance.io = s.io := rfl
@[simp] theorem advance_ready (s : State) : s.advance.ready = s.ready := rfl
@[simp] theorem advance_halted (s : State) : s.advance.halted = s.halted := rfl
@[simp] theorem advance_ovf (s : State) : s.advance.ovf = s.ovf := rfl
@[simp] theorem advance_bpskip (s : State) : s.advance.bpskip = s.bpskip := rfl
@[simp] theorem advance_hostQueue (s : State) : s.advance.hostQueue = s.hostQueue := rfl

/-! ## Gates -/

theorem canPulse_iff (s : State) : s.canPulse = true ↔ s.power = true ∧ s.halted = false ∧ s.io = .idle := by
  simp [State.canPulse, and_assoc]

theorem atBoundary_iff (s : State) : s.atBoundary = true ↔ s.phase = .fetch ∧ s.pulse = 0 := by
  simp [State.atBoundary]

/-- The comparator fires only at a cycle boundary (R128). -/
theorem breakpointFires_atBoundary (s : State) (h : s.breakpointFires = true) : s.atBoundary = true := by
  simp only [State.breakpointFires, Bool.and_eq_true] at h
  exact h.1.1

/-! ## Loops of pulses -/

/-- One more pulse, where the sequencer is in the phase and nothing holds it. -/
theorem runPulses_perform (ph : Phase) (cell : Fin 8 → State → State) (n : Nat) (s : State)
    (hp : s.phase = ph) (hc : s.canPulse = true) :
    runPulses ph cell (n + 1) s = runPulses ph cell n (performPulse cell s) := by
  rw [runPulses, if_pos ⟨hp, hc⟩]

/-- No pulse, where the sequencer is not in the phase or is held. -/
theorem runPulses_stop (ph : Phase) (cell : Fin 8 → State → State) (n : Nat) (s : State)
    (h : ¬(s.phase = ph ∧ s.canPulse = true)) : runPulses ph cell n s = s := by
  cases n with
  | zero => rfl
  | succ n => rw [runPulses, if_neg h]

/-- What every performed pulse keeps, the loop keeps. -/
theorem runPulses_induct {P : State → Prop} (ph : Phase) (cell : Fin 8 → State → State)
    (hstep : ∀ s, s.phase = ph → s.canPulse = true → P s → P (performPulse cell s)) (n : Nat) (s : State) (h : P s) :
    P (runPulses ph cell n s) := by
  induction n generalizing s with
  | zero => exact h
  | succ n ih =>
    rw [runPulses]
    split
    · rename_i hc
      exact ih _ (hstep s hc.1 hc.2 h)
    · exact h

/-- Every meaning is the rest of the Execute phase with the instruction's row of the table (R61, R67). -/
theorem exec_eq (i : Instr) (s : State) : exec i s = .next (runExecute (executeCell i) s) := by cases i <;> rfl

/-! ## The table cells -/

/-- No cell of the execute table touches the instruction, the position, the power, the breakpoints, the bypass latch, the
switches, the input latch or the host's commands (R67). -/
theorem executeCell_keeps (i : Instr) (p : Fin 8) (s : State) :
    (executeCell i p s).ir = s.ir ∧ (executeCell i p s).phase = s.phase ∧ (executeCell i p s).pulse = s.pulse ∧
    (executeCell i p s).power = s.power ∧ (executeCell i p s).bp = s.bp ∧ (executeCell i p s).bpskip = s.bpskip ∧
    (executeCell i p s).sr = s.sr ∧ (executeCell i p s).dil = s.dil ∧ (executeCell i p s).hostQueue = s.hostQueue := by
  cases i <;> fin_cases p <;>
    first
    | exact ⟨rfl, rfl, rfl, rfl, rfl, rfl, rfl, rfl, rfl⟩
    | (by_cases h : isNegative s.a = true <;> simp [executeCell, jmaCell, h])

/-- No cell of the fetch table touches A, Z, SR, the I/O latches, memory, the position, the power, the breakpoints, the
handshake, the halt or the host's commands (R64). -/
theorem fetchCell_keeps (p : Fin 8) (s : State) :
    (fetchCell p s).a = s.a ∧ (fetchCell p s).z = s.z ∧ (fetchCell p s).sr = s.sr ∧ (fetchCell p s).dsl = s.dsl ∧
    (fetchCell p s).dil = s.dil ∧ (fetchCell p s).dol = s.dol ∧ (fetchCell p s).ram = s.ram ∧
    (fetchCell p s).phase = s.phase ∧ (fetchCell p s).pulse = s.pulse ∧ (fetchCell p s).power = s.power ∧
    (fetchCell p s).bp = s.bp ∧ (fetchCell p s).io = s.io ∧ (fetchCell p s).ready = s.ready ∧
    (fetchCell p s).halted = s.halted ∧ (fetchCell p s).hostQueue = s.hostQueue := by
  fin_cases p <;> exact ⟨rfl, rfl, rfl, rfl, rfl, rfl, rfl, rfl, rfl, rfl, rfl, rfl, rfl, rfl, rfl⟩

/-- A performed pulse of the current position never moves a power switch, a breakpoint or a host command. -/
theorem currentCell_keeps (p : Fin 8) (s : State) :
    (currentCell p s).phase = s.phase ∧ (currentCell p s).pulse = s.pulse ∧ (currentCell p s).power = s.power ∧
    (currentCell p s).bp = s.bp ∧ (currentCell p s).sr = s.sr ∧ (currentCell p s).dil = s.dil ∧
    (currentCell p s).hostQueue = s.hostQueue := by
  unfold currentCell
  split
  · have h := fetchCell_keeps p s
    tauto
  · have h := executeCell_keeps (decodeWord s.ir) p s
    tauto

/-! ## StepPulse (R69) -/

/-- Power off or halted: no state change (R69 step 1). -/
theorem stepPulse_halted (s : State) (h : s.power = false ∨ s.halted = true) :
    stepPulse s = { state := s, status := .halted, overflow := false } := by
  rcases h with h | h <;> simp [stepPulse, h]

/-- A breakpoint fires: only the bypass latch changes (R69 step 2). -/
theorem stepPulse_breakpoint (s : State) (hp : s.power = true) (hh : s.halted = false) (hb : s.breakpointFires = true) :
    stepPulse s = { state := s.hitBreakpoint, status := .breakpointHit s.pcAddr, overflow := false } := by
  simp [stepPulse, hp, hh, hb]

/-- Nothing stops the pulse: it is performed (R69 steps 4 and 5). -/
theorem stepPulse_perform (s : State) (hc : s.canPulse = true) (hb : s.breakpointFires = false) :
    stepPulse s = { state := performPulse currentCell s, status := statusOf (performPulse currentCell s),
                    overflow := overflowReport s } := by
  obtain ⟨hp, hh, hi⟩ := (canPulse_iff s).mp hc
  simp [stepPulse, hp, hh, hb, hi]

/-- One turn of the loop of `RunCycle` (R77). -/
theorem runCycleLoop_succ (n : Nat) (seen : Bool) (s : State) :
    runCycleLoop (n + 1) seen s =
      if (stepPulse s).status ≠ .continuing ∨ (stepPulse s).state.atBoundary = true then
        { stepPulse s with overflow := seen || (stepPulse s).overflow }
      else runCycleLoop n (seen || (stepPulse s).overflow) (stepPulse s).state := by
  rw [runCycleLoop]
  by_cases h₁ : (stepPulse s).status = .continuing <;> by_cases h₂ : (stepPulse s).state.atBoundary = true <;>
    simp [h₁, h₂]

end Sys2Proof.Machine
end

