-- ==== Sys2Proof/Tests/Slice0.lean ====
section
/-! SUPPORT. The model's own tests: ill-formed terms that the checks refuse, every constructor's word, one step of every
instruction on the vectors of spec/95_test_vectors.md (V<n>), and for each obligation with hypotheses a state and operands
that meet them. Every expected result is the spec's or worked out by hand from its rules. -/

namespace Sys2Proof.Tests

open Sys2Proof Sys2Proof.Machine

/-! ## Ill-formed terms -/

/-- ADD takes an operand (R57). -/
theorem test_ill_missing_operand : (SourceItem.instr .ADD none).wellFormed = false := by decide

/-- CSA takes none (R57). -/
theorem test_ill_unwanted_operand : (SourceItem.instr .CSA (some 0)).wellFormed = false := by decide

/-- An operand has 12 bits (R57). -/
theorem test_ill_wide_operand : (SourceItem.instr .JMP (some 4096)).wellFormed = false := by decide

/-- A word has 16 bits (R57). -/
theorem test_ill_wide_word : (SourceItem.word 65536).wellFormed = false := by decide

/-- There is no word 4096 (R33). -/
theorem test_ill_line_address : (SourceLine.mk (some 4096) (.word 0)).wellFormed = false := by decide

/-- The bounds themselves are well formed. -/
theorem test_well_formed_bounds :
    (SourceItem.instr .JMP (some 4095)).wellFormed = true ∧ (SourceItem.word 65535).wellFormed = true ∧
    (SourceLine.mk (some 4095) (.instr .CSA none)).wellFormed = true ∧ (Instr.nop 0xFFF#12).wellFormed = true := by
  decide

/-! ## Decoding: words written out bit by bit from R49 and R53 -/

/-- Opcodes 0 to 5, each with another field. -/
theorem test_decode_0_to_5 :
    decodeWord 0b0000000000000000#16 = .hlt 0x000#12 ∧ decodeWord 0b0001000000000001#16 = .add 0x001#12 ∧
    decodeWord 0b0010100000000000#16 = .xor 0x800#12 ∧ decodeWord 0b0011111111111111#16 = .and 0xFFF#12 ∧
    decodeWord 0b0100000001000000#16 = .ior 0x040#12 ∧ decodeWord 0b0101101010111100#16 = .not 0xABC#12 := by
  decide

/-- Opcodes 6 to 10. -/
theorem test_decode_6_to_10 :
    decodeWord 0b0110000000000100#16 = .lda 0x004#12 ∧ decodeWord 0b0111000000010101#16 = .sta 0x015#12 ∧
    decodeWord 0b1000000000010000#16 = .srj 0x010#12 ∧ decodeWord 0b1001000000000101#16 = .jma 0x005#12 ∧
    decodeWord 0b1010000000000001#16 = .jmp 0x001#12 := by
  decide

/-- Opcodes 11 to 15. -/
theorem test_decode_11_to_15 :
    decodeWord 0b1011000000000001#16 = .inp 0x001#12 ∧ decodeWord 0b1100000000000010#16 = .out 0x002#12 ∧
    decodeWord 0b1101000000000000#16 = .ral 0x000#12 ∧ decodeWord 0b1110000000000000#16 = .csa 0x000#12 ∧
    decodeWord 0b1111101010111100#16 = .nop 0xABC#12 := by
  decide

/-- The table's numbering: the word is the bits (R48), and no word is refused by name where there is none. -/
theorem test_decode_table_word :
    decodeTableWord 16 0x7015 = some (.sta 0x015#12) ∧
    decodeWords [0x7015#16, 0xF000#16] = .ok (.sta 0x015#12, [0xF000#16]) ∧ decodeWords [] = .error .noWord := by
  decide

/-- P1 of spec/95_test_vectors.md section 3, with an address stated and a gap left (R57). -/
theorem test_assemble :
    assemble [⟨none, .instr .LDA (some 4)⟩, ⟨none, .instr .ADD (some 5)⟩, ⟨none, .instr .HLT none⟩,
      ⟨some 4, .word 5⟩, ⟨none, .word 3⟩] =
      some [0x6004#16, 0x1005#16, 0x0000#16, 0x0000#16, 0x0005#16, 0x0003#16] ∧
    assemble [⟨some 4, .word 5⟩, ⟨some 3, .word 3⟩] = none := by
  decide

/-! ## One instruction cycle each -/

/-- The start of every vector of spec/95_test_vectors.md section 2.2, with the word `w` at PC. -/
def engine (w : Word) : State :=
  { State.reset with
    pc := 0x0010#16, a := 0x1234#16, sr := 0xBEEF#16, ram := [(0x010, w), (0x020, 0x0F0F#16)] }

/-- The same engine at pulse `p` of the Execute phase of `i`. -/
def during (i : Instr) (p : Fin 8) : State :=
  { engine (encode i) with
    pc := 0x0011#16, mar := 0x0010#16, mbr := encode i, ir := encode i, phase := .execute, pulse := p }

/-- The state after one step. -/
def after (s : State) : State :=
  match step s with
  | .next t => t
  | .fault _ => s
  | .refused _ => s

/-- The columns of the vectors: PC, A, Z, MAR, MBR, IR. -/
def columns (s : State) : List Word := [s.pc, s.a, s.z, s.mar, s.mbr, s.ir]

/-- V20. -/
theorem test_hlt :
    columns (after (engine 0x0020#16)) = [0x0011#16, 0x1234#16, 0x0000#16, 0x0010#16, 0x0020#16, 0x0020#16] ∧
    (after (engine 0x0020#16)).halted = true ∧ (after (engine 0x0020#16)).atBoundary = true := by
  decide

/-- V21. -/
theorem test_add :
    columns (after (engine 0x1020#16)) = [0x0011#16, 0x2143#16, 0x0F0F#16, 0x0020#16, 0x0F0F#16, 0x1020#16] ∧
    (after (engine 0x1020#16)).ovf = false := by
  decide

/-- V40 and V43: signed overflow is not carry. -/
theorem test_add_overflow :
    (runCycle { engine 0x1020#16 with a := 0x70F1#16 }).overflow = true ∧
    (after { engine 0x1020#16 with a := 0x70F1#16 }).a = 0x8000#16 ∧
    (runCycle { engine 0x1020#16 with a := 0xF0F1#16 }).overflow = false ∧
    (after { engine 0x1020#16 with a := 0xF0F1#16 }).a = 0x0000#16 := by
  decide

/-- V40 to V51: the overflow column. -/
theorem test_overflow_column :
    [addOverflow 0x7FFF#16 0x0001#16, addOverflow 0x0001#16 0x7FFF#16, addOverflow 0x8000#16 0x8000#16,
      addOverflow 0xFFFF#16 0x0001#16, addOverflow 0x8000#16 0xFFFF#16, addOverflow 0xC000#16 0xC000#16,
      addOverflow 0x4000#16 0x4000#16, addOverflow 0x1234#16 0x0000#16, addOverflow 0xFFFF#16 0xFFFF#16,
      addOverflow 0x7FFF#16 0x7FFF#16, addOverflow 0x8000#16 0x7FFF#16, addOverflow 0x0005#16 0xFFFD#16] =
    [true, true, true, false, true, false, true, false, false, true, false, false] := by
  decide

/-- V22. -/
theorem test_xor :
    columns (after (engine 0x2020#16)) = [0x0011#16, 0x1D3B#16, 0x0F0F#16, 0x0020#16, 0x0F0F#16, 0x2020#16] := by
  decide

/-- V23. -/
theorem test_and :
    columns (after (engine 0x3020#16)) = [0x0011#16, 0x0204#16, 0x0F0F#16, 0x0020#16, 0x0F0F#16, 0x3020#16] := by
  decide

/-- V24. -/
theorem test_ior :
    columns (after (engine 0x4020#16)) = [0x0011#16, 0x1F3F#16, 0x0F0F#16, 0x0020#16, 0x0F0F#16, 0x4020#16] := by
  decide

/-- V25. -/
theorem test_not :
    columns (after (engine 0x5020#16)) = [0x0011#16, 0xEDCB#16, 0x0000#16, 0x0010#16, 0x5020#16, 0x5020#16] := by
  decide

/-- V26. -/
theorem test_lda :
    columns (after (engine 0x6020#16)) = [0x0011#16, 0x0F0F#16, 0x0000#16, 0x0020#16, 0x0F0F#16, 0x6020#16] := by
  decide

/-- V80: the last word of memory. -/
theorem test_lda_last_word :
    (after { engine 0x6FFF#16 with ram := [(0x010, 0x6FFF#16), (0xFFF, 0xCAFE#16)] }).a = 0xCAFE#16 := by
  decide

/-- V27. -/
theorem test_sta :
    columns (after (engine 0x7020#16)) = [0x0011#16, 0x1234#16, 0x0000#16, 0x0020#16, 0x1234#16, 0x7020#16] ∧
    Memory.read (after (engine 0x7020#16)).ram 0x020#12 = 0x1234#16 := by
  decide

/-- V82: a store over the STA itself, and the word 0x0000 leaves no entry in memory. -/
theorem test_sta_over_itself :
    (after { engine 0x7010#16 with a := 0x4321#16 }).ram = [(0x010, 0x4321#16), (0x020, 0x0F0F#16)] ∧
    (after { engine 0x7010#16 with a := 0x0000#16 }).ram = [(0x020, 0x0F0F#16)] := by
  decide

/-- V28. -/
theorem test_srj :
    columns (after (engine 0x8020#16)) = [0x0021#16, 0x1234#16, 0x0000#16, 0x0020#16, 0x0011#16, 0x8020#16] ∧
    Memory.read (after (engine 0x8020#16)).ram 0x020#12 = 0x0011#16 := by
  decide

/-- V90: the entry wraps. -/
theorem test_srj_wraps :
    (after { engine 0x8FFF#16 with pc := 0x0005#16, ram := [(0x005, 0x8FFF#16)] }).pc = 0x0000#16 ∧
    Memory.read (after { engine 0x8FFF#16 with pc := 0x0005#16, ram := [(0x005, 0x8FFF#16)] }).ram 0xFFF#12 =
      0x0006#16 := by
  decide

/-- V29, not taken and taken. -/
theorem test_jma :
    columns (after (engine 0x9020#16)) = [0x0011#16, 0x1234#16, 0x0000#16, 0x0010#16, 0x9020#16, 0x9020#16] ∧
    (after { engine 0x9020#16 with a := 0x8000#16 }).pc = 0x0020#16 := by
  decide

/-- V92: 0x7FFF is not negative. -/
theorem test_jma_not_taken : (after { engine 0x9020#16 with a := 0x7FFF#16 }).pc = 0x0011#16 := by decide

/-- V30. -/
theorem test_jmp :
    columns (after (engine 0xA020#16)) = [0x0020#16, 0x1234#16, 0x0000#16, 0x0010#16, 0xA020#16, 0xA020#16] := by
  decide

/-- The engine of V31 held at E1, with the host's completion and nothing else waiting. -/
def inputHeld : State := { after (engine 0xB020#16) with hostQueue := [.completeInput 0xAB#8] }

/-- V31: the hold. -/
theorem test_inp_holds :
    inputHeld.io = .awaitIn ∧ inputHeld.phase = .execute ∧ inputHeld.pulse = 1 ∧ inputHeld.dsl = 0x0020#16 ∧
    inputHeld.ready = false := by
  decide

/-- V31: the completion, then the rest of the cycle. -/
theorem test_inp :
    columns (after (after inputHeld)) = [0x0011#16, 0xAB34#16, 0x0000#16, 0x0010#16, 0xB020#16, 0xB020#16] ∧
    (after (after inputHeld)).dil = 0x00AB#16 ∧ (after (after inputHeld)).ready = true ∧
    (after (after inputHeld)).atBoundary = true := by
  decide

/-- The engine of V32 held at E2, with the host's completion waiting. -/
def outputHeld : State := { after (engine 0xC020#16) with hostQueue := [.completeOutput] }

/-- V32: the hold. -/
theorem test_out_holds :
    outputHeld.io = .awaitOut ∧ outputHeld.phase = .execute ∧ outputHeld.pulse = 2 ∧ outputHeld.dsl = 0x0020#16 ∧
    outputHeld.dol = 0x0012#16 ∧ outputHeld.ready = false := by
  decide

/-- V32: the completion, then the rest of the cycle. -/
theorem test_out :
    columns (after (after outputHeld)) = [0x0011#16, 0x1234#16, 0x0000#16, 0x0010#16, 0xC020#16, 0xC020#16] ∧
    (after (after outputHeld)).ready = true ∧ (after (after outputHeld)).atBoundary = true := by
  decide

/-- V33. -/
theorem test_ral :
    columns (after (engine 0xD020#16)) = [0x0011#16, 0x2468#16, 0x0000#16, 0x0010#16, 0xD020#16, 0xD020#16] := by
  decide

/-- W4: 0x8001 rotated once. -/
theorem test_ral_carries_round : (after { engine 0xD000#16 with a := 0x8001#16 }).a = 0x0003#16 := by decide

/-- V34. -/
theorem test_csa :
    columns (after (engine 0xE020#16)) = [0x0011#16, 0xBEEF#16, 0x0000#16, 0x0010#16, 0xE020#16, 0xE020#16] := by
  decide

/-- V35. -/
theorem test_nop :
    columns (after (engine 0xF020#16)) = [0x0011#16, 0x1234#16, 0x0000#16, 0x0010#16, 0xF020#16, 0xF020#16] := by
  decide

/-! ## The sequencer and the host -/

/-- V3: MAR takes all of PC, memory and the increment its low 12 bits. -/
theorem test_fetch_wraps :
    columns (after { engine 0xF000#16 with pc := 0x1FFF#16, ram := [(0xFFF, 0xF000#16)] }) =
      [0x0000#16, 0x1234#16, 0x0000#16, 0x1FFF#16, 0xF000#16, 0xF000#16] := by
  decide

/-- V84: E1 reads at the MAR that the host wrote after E0. -/
theorem test_host_writes_mar_after_e0 :
    (after { during (.lda 0x020#12) 1 with
        mar := 0x0100#16, ram := [(0x010, 0x6020#16), (0x020, 0x1111#16), (0x100, 0x7777#16)] }).a = 0x7777#16 := by
  decide

/-- V124: the pulses after a host write of IR follow the new row. -/
theorem test_host_writes_ir_mid_cycle :
    columns (after { during (.add 0x020#12) 1 with
        mar := 0x0020#16, ir := 0x6030#16, ram := [(0x010, 0x1020#16), (0x020, 0x0005#16)] }) =
      [0x0011#16, 0x0005#16, 0x0000#16, 0x0020#16, 0x0005#16, 0x6030#16] := by
  decide

/-- V7: after sixteen pulses the sequencer is at a boundary, and after fifteen at E7. -/
theorem test_sixteen_pulses :
    ((fun s => (stepPulse s).state)^[16] (engine 0xF000#16)).atBoundary = true ∧
    ((fun s => (stepPulse s).state)^[15] (engine 0xF000#16)).pulse = 7 := by
  decide

/-- V8: only the twelfth pulse reports the overflow. -/
theorem test_overflow_pulse :
    (List.range 16).map (fun k =>
        (stepPulse ((fun s => (stepPulse s).state)^[k] { engine 0x1020#16 with a := 0x7FFF#16 })).overflow) =
      [false, false, false, false, false, false, false, false, false, false, false, true, false, false, false, false] := by
  decide

/-- R76, R78: a `RunCycle` entered at E3 reports that pulse, and one entered after it does not. -/
theorem test_overflow_mid_cycle :
    (runCycle { during (.add 0x020#12) 3 with a := 0x7FFF#16, z := 0x0001#16 }).overflow = true ∧
    (runCycle { during (.add 0x020#12) 4 with a := 0x7FFF#16, z := 0x0001#16 }).overflow = false := by
  decide

/-- V31: seven pulses after the completion, and no fewer, end the cycle. -/
theorem test_input_pulses :
    (List.range 8).map (fun k => ((fun s => (stepPulse s).state)^[k] (after inputHeld)).atBoundary) =
      [false, false, false, false, false, false, false, true] := by
  decide

/-- V32: six pulses after the completion, and no fewer, end the cycle. -/
theorem test_output_pulses :
    (List.range 7).map (fun k => ((fun s => (stepPulse s).state)^[k] (after outputHeld)).atBoundary) =
      [false, false, false, false, false, false, true] := by
  decide

/-- V106: the completion of the other kind is ignored. -/
theorem test_wrong_completion :
    command (.completeInput 0x55#8) (during (.out 0x020#12) 2) = (during (.out 0x020#12) 2, .ignored) := by
  decide

/-- V115: the last address is in, the next number is not. -/
theorem test_breakpoint_range :
    (command (.setBreakpoint 4095) State.reset).1.bp = [0xFFF#12] ∧
    (command (.setBreakpoint 4095) State.reset).2 = .ok ∧
    (command (.setBreakpoint 4096) State.reset).2 = .invalidBreakpointAddress := by
  decide

/-- V111: the hit, then the instruction. -/
theorem test_breakpoint_hit_then_runs :
    (runCycle { engine 0xF000#16 with bp := [0x010#12] }).status = .breakpointHit 0x010#12 ∧
    (after { engine 0xF000#16 with bp := [0x010#12] }).pc = 0x0010#16 ∧
    (after (after { engine 0xF000#16 with bp := [0x010#12] })).pc = 0x0011#16 := by
  decide

/-- P1 of spec/95_test_vectors.md section 3: three cycles, and more allowed change nothing. -/
theorem test_run_program :
    (runProgram 3 [0x6004#16, 0x1005#16, 0x0000#16, 0x0000#16, 0x0005#16, 0x0003#16] State.reset).2 = .stopped .halted ∧
    (runProgram 2 [0x6004#16, 0x1005#16, 0x0000#16, 0x0000#16, 0x0005#16, 0x0003#16] State.reset).2 = .outOfFuel ∧
    columns (runProgram 5 [0x6004#16, 0x1005#16, 0x0000#16, 0x0000#16, 0x0005#16, 0x0003#16] State.reset).1 =
      [0x0003#16, 0x0008#16, 0x0003#16, 0x0002#16, 0x0000#16, 0x0000#16] := by
  decide

/-- A word placed for the fetch is what the next step runs, from reset and from a state that held back every fetch. -/
theorem test_with_fetch_word :
    (after (State.reset.withFetchWord 16 0xA123)).pc = 0x0123#16 ∧
    (after (({ during (.inp 0x020#12) 1 with
        io := .awaitIn, power := false, bp := [0x011#12] } : State).withFetchWord 16 0xA123)).pc = 0x0123#16 := by
  decide

/-! ## Witnesses: what meets the hypotheses of each obligation -/

section Witnesses

/-- FetchFromEachPulse: each of its cases, at F0 to F4. -/
theorem witness_fetch_from_each_pulse :
    ∀ p : Fin 8, ({ engine 0x1020#16 with pulse := p } : State).PulseAt .fetch p := by decide

/-- PerformedPulseAdvances: a pulse 7 of each phase, a pulse before it, and each hold. -/
theorem witness_performed_pulse :
    ({ engine 0x1020#16 with pulse := 7 } : State).PulseAt .fetch 7 ∧
    ({ engine 0x1020#16 with pulse := 7 } : State).breakpointFires = false ∧
    (during (.add 0x020#12) 7).PulseAt .execute 7 ∧ (during (.add 0x020#12) 7).breakpointFires = false ∧
    (during (.add 0x020#12) 6).PulseAt .execute 6 ∧ (during (.add 0x020#12) 6).breakpointFires = false ∧
    ({ State.reset with power := false } : State).power = false ∧ ({ State.reset with halted := true } : State).halted = true ∧
    ({ State.reset with bp := [0x000#12] } : State).breakpointFires = true ∧
    ({ during (.inp 0x020#12) 1 with io := .awaitIn } : State).io ≠ .idle := by
  decide

/-- StepRunsTheDecodedInstruction, first clause. -/
theorem witness_step_runs_from_boundary :
    (engine (encode (.add 0x020#12))).ReadyToFetch ∧ (engine (encode (.add 0x020#12))).hostQueue = [] ∧
    Memory.read (engine (encode (.add 0x020#12))).ram (engine (encode (.add 0x020#12))).pcAddr = encode (.add 0x020#12) := by
  decide

/-- StepRunsTheDecodedInstruction, second clause, and StepIsRunCycle. -/
theorem witness_step_runs_mid_execute :
    (during (.sta 0x020#12) 2).Executing ∧ (during (.sta 0x020#12) 2).hostQueue = [] ∧
    (during (.sta 0x020#12) 2).ir = encode (.sta 0x020#12) := by
  decide

/-- BoundsCutNothingShort: a run that stops. -/
theorem witness_run_stops : (runProgram 1 [0x0000#16] State.reset).2 ≠ .outOfFuel := by decide

/-- PendingTransferHolds, HandshakeTransitions and HostKeepsThePosition: a pending input and a pending output. -/
theorem witness_pending_transfers :
    (after (engine 0xB020#16)).Inv ∧ (after (engine 0xB020#16)).power = true ∧ (after (engine 0xB020#16)).io = .awaitIn ∧
    (after (engine 0xB020#16)).hostQueue = [] ∧
    (after (engine 0xC020#16)).Inv ∧ (after (engine 0xC020#16)).power = true ∧ (after (engine 0xC020#16)).io = .awaitOut ∧
    (after (engine 0xC020#16)).hostQueue = [] := by
  decide

/-- HaltedOrOffStands and PowerOffIsFinal: off, and halted, each with a breakpoint at PC. -/
theorem witness_halted_or_off :
    ({ State.reset with power := false, bp := [0x000#12] } : State).power = false ∧
    ({ State.reset with power := false, bp := [0x000#12] } : State).hostQueue = [] ∧
    ({ State.reset with halted := true, bp := [0x000#12] } : State).halted = true ∧
    ({ State.reset with halted := true, bp := [0x000#12] } : State).hostQueue = [] := by
  decide

/-- BreakpointStopsBeforeTheFetch and BypassPassesOnce: a hit at the last address, and another breakpoint to move to. -/
theorem witness_breakpoint_hit :
    (stepPulse { State.reset with pc := 0x1FFF#16, bp := [0x000#12, 0xFFF#12] }).status = .breakpointHit 0xFFF#12 ∧
    ({ State.reset with pc := 0x1FFF#16, bp := [0x000#12, 0xFFF#12] } : State).io = .idle ∧
    addressField 0xF000#16 ≠ 0xFFF#12 ∧ addressField 0xF000#16 ∈ [0x000#12, 0xFFF#12] := by
  decide

/-- OverflowIsReported: an E3 that reports, an ADD at a boundary, and the opcodes on both sides of its own there. -/
theorem witness_overflow :
    (stepPulse { during (.add 0x020#12) 3 with a := 0x7FFF#16, z := 0x0001#16 }).overflow = true ∧
    (engine 0x1020#16).ReadyToFetch ∧
    Memory.read (engine 0x1020#16).ram (engine 0x1020#16).pcAddr = encode (.add 0x020#12) ∧
    (engine 0x0020#16).ReadyToFetch ∧ opcodeField (Memory.read (engine 0x0020#16).ram 0x010#12) ≠ 1#4 ∧
    (engine 0x2020#16).ReadyToFetch ∧ opcodeField (Memory.read (engine 0x2020#16).ram 0x010#12) ≠ 1#4 := by
  decide

/-- OverflowIsReported, from the middle of a cycle: F7, and an ADD at every pulse of its Execute phase. -/
theorem witness_overflow_mid_cycle :
    ({ engine 0x1020#16 with pulse := 7 } : State).PulseAt .fetch 7 ∧
    ({ engine 0x1020#16 with pulse := 7 } : State).breakpointFires = false ∧
    ∀ p : Fin 8, (during (.add 0x020#12) p).Executing ∧ opcodeField (during (.add 0x020#12) p).ir = 1#4 := by
  decide

/-- SixteenPulsesPerInstruction: an INP and an OUT, and the opcodes on both sides of theirs. -/
theorem witness_sixteen_pulses :
    (engine 0xA020#16).ReadyToFetch ∧ (engine 0xB020#16).ReadyToFetch ∧ (engine 0xC020#16).ReadyToFetch ∧
    (engine 0xD020#16).ReadyToFetch ∧
    [0xA020#16, 0xB020#16, 0xC020#16, 0xD020#16].map (fun w => Memory.read (engine w).ram (engine w).pcAddr) =
      [0xA020#16, 0xB020#16, 0xC020#16, 0xD020#16] ∧
    opcodeField 0xA020#16 ≠ 11#4 ∧ opcodeField 0xA020#16 ≠ 12#4 ∧ opcodeField 0xB020#16 = 11#4 ∧
    opcodeField 0xC020#16 = 12#4 ∧ opcodeField 0xD020#16 ≠ 11#4 ∧ opcodeField 0xD020#16 ≠ 12#4 := by
  decide

/-- The sixteen instruction statements: a word of each opcode at its smallest and its largest field. -/
theorem witness_instruction_words :
    ∀ n : Fin 16,
      (BitVec.ofNat 16 (n.val * 4096)) &&& 0xF000#16 = BitVec.ofNat 16 (n.val * 4096) ∧
      (BitVec.ofNat 16 (n.val * 4096 + 4095)) &&& 0xF000#16 = BitVec.ofNat 16 (n.val * 4096) := by
  decide

/-- The sixteen instruction statements and StoreFrame: every pulse of the Execute phase. -/
theorem witness_executing :
    ∀ p : Fin 8, (during (.sta 0x020#12) p).Executing ∧ (during (.sta 0x020#12) p).pulse = p ∧
      Memory.wf (during (.sta 0x020#12) p).ram = true := by
  decide

/-- JmaBranchesOnSign: taken and not taken, on both sides of the sign. -/
theorem witness_jma_sign :
    (0x8000#16).getLsbD 15 = true ∧ (0x7FFF#16).getLsbD 15 = false ∧ (0xFFFF#16).getLsbD 15 = true ∧
    (0x0000#16).getLsbD 15 = false := by
  decide

/-- The six frames and SwitchesAreTheHosts: every instruction has a next state, of which they then speak. -/
theorem witness_frames :
    (∀ i ∈ [Instr.add 0x020#12, .xor 0x020#12, .and 0x020#12, .ior 0x020#12],
      exec i (during i 0) = .next (runExecute (executeCell i) (during i 0))) ∧
    (∀ i ∈ [Instr.not 0x020#12, .ral 0x020#12, .csa 0x020#12, .lda 0x020#12],
      exec i (during i 0) = .next (runExecute (executeCell i) (during i 0))) ∧
    (∀ i ∈ [Instr.sta 0x020#12, .srj 0x020#12, .jma 0x020#12, .jmp 0x020#12],
      exec i (during i 0) = .next (runExecute (executeCell i) (during i 0))) ∧
    ∀ i ∈ [Instr.hlt 0x020#12, .nop 0x020#12, .inp 0x020#12, .out 0x020#12],
      exec i (during i 0) = .next (runExecute (executeCell i) (during i 0)) := by
  refine ⟨?_, ?_, ?_, ?_⟩ <;> · intro i h; fin_cases h <;> rfl

/-- SwitchesAreTheHosts and HostKeepsThePosition: a command of neither kind that their hypotheses name. -/
theorem witness_host_commands :
    (∀ v, Command.resume ≠ .writeRegister 3 v) ∧ (∀ cfg, Command.resume ≠ .construct cfg) ∧
    Command.resume ≠ .stepPulse ∧ Command.resume ≠ .runCycle ∧ (∀ n ws, Command.resume ≠ .runProgram n ws) ∧
    (∀ v, Command.writeRegister 4 v ≠ .writeRegister 3 v) ∧ (∀ a, Instr.jmp 0x020#12 ≠ .csa a) := by
  refine ⟨?_, ?_, ?_, ?_, ?_, ?_, ?_⟩ <;> intros <;> simp

/-- EngineKeepsPcEffective, DeviceLatchesAreNotRead and EveryStepKeepsTheInvariants: a step from a state that meets the
invariants, with no command waiting and with one. -/
theorem witness_step :
    (engine 0x7020#16).Inv ∧ (engine 0x7020#16).hostQueue = [] ∧
    step (engine 0x7020#16) = .next (after (engine 0x7020#16)) ∧
    ({ engine 0x7020#16 with hostQueue := [.setBreakpoint 5] } : State).Inv ∧
    step { engine 0x7020#16 with hostQueue := [.setBreakpoint 5] } = .next { engine 0x7020#16 with bp := [0x005#12] } := by
  refine ⟨by decide, rfl, rfl, by decide, by rfl⟩

/-- OnlyStoresWriteMemory: a pulse that changes a word, of STA and of SRJ. -/
theorem witness_store_pulse :
    (∀ i ∈ [Instr.sta 0x020#12, .srj 0x020#12],
      Memory.read (stepPulse (during i 2)).state.ram 0x010#12 ≠ Memory.read (during i 2).ram 0x010#12 ∨
        (during i 2).mbr = Memory.read (during i 2).ram 0x010#12) ∧
    Memory.read (stepPulse { during (.sta 0x020#12) 2 with mbr := 0x5555#16 }).state.ram 0x010#12 ≠
      Memory.read (during (.sta 0x020#12) 2).ram 0x010#12 ∧
    Memory.wf (during (.sta 0x020#12) 2).ram = true := by
  decide

/-- HandshakeTransitions: E0 of an INP, E1 of an OUT, and a pulse and a command that move the transfer state. -/
theorem witness_handshake :
    (during (.inp 0x020#12) 0).PulseAt .execute 0 ∧ opcodeField (during (.inp 0x020#12) 0).ir = 11#4 ∧
    (during (.out 0x020#12) 1).PulseAt .execute 1 ∧ opcodeField (during (.out 0x020#12) 1).ir = 12#4 ∧
    (stepPulse (during (.inp 0x020#12) 0)).state.io ≠ (during (.inp 0x020#12) 0).io ∧
    (command .completeOutput (after (engine 0xC020#16))).1.io ≠ (after (engine 0xC020#16)).io := by
  decide

/-- ReachableStatesMeetTheInvariants: a state two commands away from `Construct`. -/
theorem witness_reachable :
    Reachable (command .runCycle (command (.setBreakpoint 0) (construct ⟨false, false, false⟩)).1).1 :=
  .command _ _ (.command _ _ (.construct _))

/-- RegisterPort: the selectors where its two clauses meet. -/
theorem witness_selectors :
    regOfSelector 0 = some .pc ∧ regOfSelector 9 = some .dol ∧ 10 ≤ (10 : Fin 16).val ∧ 10 ≤ (15 : Fin 16).val := by decide

/-- LoadProgramPlacesTheWords: the lengths 0, 4096 and 4097, and addresses at the end of a program. -/
theorem witness_load_lengths :
    Memory.wf (engine 0x1020#16).ram = true ∧ ([] : List Word).length ≤ 4096 ∧
    (List.replicate 4096 0x0000#16).length ≤ 4096 ∧ 4096 < (List.replicate 4097 0x0000#16).length ∧
    [0x1111#16].length ≤ (0x001#12).toNat := by
  refine ⟨by decide, by decide, ?_, ?_, by decide⟩
  · exact List.length_replicate.le
  · rw [List.length_replicate]
    decide

/-- BreakpointCommands: an address that is in a canonical set already. -/
theorem witness_breakpoint_known :
    breakpointsWf [0x000#12, 0xFFF#12] = true ∧ BitVec.ofNat 12 4095 ∈ [0x000#12, 0xFFF#12] ∧ 4095 ≤ 4095 ∧ 4095 < 4096 := by
  decide

/-- ResumeEndsTheHalt: V6. -/
theorem witness_resume :
    ({ engine 0xF000#16 with halted := true } : State).Inv ∧ ({ engine 0xF000#16 with halted := true } : State).power = true ∧
    ({ engine 0xF000#16 with halted := true } : State).hostQueue = [] ∧
    (command .resume { engine 0xF000#16 with halted := true }).1.breakpointFires = false ∧
    Memory.read (engine 0xF000#16).ram (engine 0xF000#16).pcAddr = encode (.nop 0x000#12) := by
  decide

end Witnesses

end Sys2Proof.Tests
end

namespace Sys2Proof.Machine

/-! ## What a pulse leaves (R69) -/

/-- A `StepPulse` leaves the state as it is, hits a breakpoint, or performs the pulse of the current position (R69, R70). -/
theorem stepPulse_state_cases (s : State) :
    (stepPulse s).state = s ∨
    (s.breakpointFires = true ∧ (stepPulse s).state = s.hitBreakpoint) ∨
    (s.canPulse = true ∧ s.breakpointFires = false ∧ (stepPulse s).state = performPulse currentCell s) := by
  by_cases hstop : s.power = false ∨ s.halted = true
  · exact .inl (by rw [stepPulse_halted s hstop])
  simp only [not_or, Bool.not_eq_false, Bool.not_eq_true] at hstop
  obtain ⟨hpower, hhalted⟩ := hstop
  cases hbreak : s.breakpointFires with
  | true => exact .inr (.inl ⟨rfl, by rw [stepPulse_breakpoint s hpower hhalted hbreak]⟩)
  | false =>
    cases hio : s.io with
    | idle =>
      have hcan : s.canPulse = true := (canPulse_iff s).mpr ⟨hpower, hhalted, hio⟩
      exact .inr (.inr ⟨hcan, rfl, by rw [stepPulse_perform s hcan hbreak]⟩)
    | awaitIn => exact .inl (by simp [stepPulse, hpower, hhalted, hbreak, hio])
    | awaitOut => exact .inl (by simp [stepPulse, hpower, hhalted, hbreak, hio])

/-! ## What every pulse keeps, the host's runs keep -/

/-- What every `StepPulse` keeps, the loop of `RunCycle` keeps (R77). -/
theorem runCycleLoop_induct {P : State → Prop} (hpulse : ∀ s, P s → P (stepPulse s).state) (n : Nat) (seen : Bool)
    (s : State) (h : P s) : P (runCycleLoop n seen s).state := by
  induction n generalizing seen s with
  | zero => exact h
  | succ n ih =>
    rw [runCycleLoop_succ]
    split
    · exact hpulse s h
    · exact ih _ _ (hpulse s h)

/-- What every `StepPulse` keeps, the loop of `RunProgram` keeps (R79). -/
theorem runProgramLoop_induct {P : State → Prop} (hpulse : ∀ s, P s → P (stepPulse s).state) (n : Nat) (s : State)
    (h : P s) : P (runProgramLoop n s).1 := by
  induction n generalizing s with
  | zero => exact h
  | succ n ih =>
    have hcycle : P (runCycle s).state := runCycleLoop_induct hpulse 16 false s h
    simp only [runProgramLoop]
    split
    · exact ih _ hcycle
    · exact hcycle

/-! ## Only the host writes SR (R16) -/

@[simp] theorem executeCell_sr (i : Instr) (p : Fin 8) (s : State) : (executeCell i p s).sr = s.sr := by
  obtain ⟨_, _, _, _, _, _, hsr, _⟩ := executeCell_keeps i p s
  exact hsr

@[simp] theorem currentCell_sr (p : Fin 8) (s : State) : (currentCell p s).sr = s.sr := by
  obtain ⟨_, _, _, _, hsr, _⟩ := currentCell_keeps p s
  exact hsr

theorem runExecute_sr (i : Instr) (s : State) : (runExecute (executeCell i) s).sr = s.sr :=
  runPulses_induct (P := fun t => t.sr = s.sr) .execute (executeCell i)
    (fun t _ _ ht => (executeCell_sr i t.pulse t).trans ht) _ s rfl

theorem exec_sr (i : Instr) (s t : State) (h : exec i s = .next t) : t.sr = s.sr := by
  rw [exec_eq] at h
  cases h
  exact runExecute_sr i s

@[simp] theorem stepPulse_sr (s : State) : (stepPulse s).state.sr = s.sr := by
  obtain h | ⟨_, h⟩ | ⟨_, _, h⟩ := stepPulse_state_cases s
  · rw [h]
  · rw [h]; rfl
  · rw [h]; exact currentCell_sr s.pulse s

theorem runCycle_sr (s : State) : (runCycle s).state.sr = s.sr :=
  runCycleLoop_induct (P := fun t => t.sr = s.sr) (fun t ht => (stepPulse_sr t).trans ht) 16 false s rfl

theorem loadProgram_sr (words : List Word) (s : State) : (loadProgram words s).1.sr = s.sr := by
  unfold loadProgram; split <;> rfl

theorem runProgram_sr (cycles : Nat) (words : List Word) (s : State) : (runProgram cycles words s).1.sr = s.sr := by
  unfold runProgram
  split
  · exact runProgramLoop_induct (P := fun t => t.sr = s.sr) (fun t ht => (stepPulse_sr t).trans ht) cycles _
      (loadProgram_sr words s)
  · rfl

/-- Selector 3 alone names SR (R12). -/
theorem regOfSelector_eq_sr (sel : Fin 16) : regOfSelector sel = some .sr ↔ sel = 3 := by
  revert sel; decide

theorem writeRegister_sr (sel : Fin 16) (v : Word) (s : State) (h : sel ≠ 3) : (writeRegister sel v s).1.sr = s.sr := by
  have hreg : regOfSelector sel ≠ some .sr := (regOfSelector_eq_sr sel).not.mpr h
  unfold writeRegister
  split
  · next r hr =>
    have hne : r ≠ .sr := fun e => hreg (e ▸ hr)
    simp [hne]
  · rfl

theorem setBreakpoint_sr (addr : Nat) (s : State) : (setBreakpoint addr s).1.sr = s.sr := by
  unfold setBreakpoint; split <;> rfl

theorem completeInput_sr (b : Byte) (s : State) : (completeInput b s).1.sr = s.sr := by
  unfold completeInput; split <;> rfl

theorem completeOutput_sr (s : State) : (completeOutput s).1.sr = s.sr := by
  unfold completeOutput; split <;> rfl

theorem resume_sr (s : State) : (resume s).sr = s.sr := by
  unfold resume; split <;> rfl

theorem command_sr (c : Command) (s : State) (hwrite : ∀ v, c ≠ .writeRegister 3 v) (hnew : ∀ cfg, c ≠ .construct cfg) :
    (command c s).1.sr = s.sr := by
  cases c with
  | construct cfg => exact absurd rfl (hnew cfg)
  | writeRegister sel v => exact writeRegister_sr sel v s fun hsel => hwrite v (hsel ▸ rfl)
  | loadProgram words => exact loadProgram_sr words s
  | stepPulse => exact stepPulse_sr s
  | runCycle => exact runCycle_sr s
  | runProgram cycles words => exact runProgram_sr cycles words s
  | setBreakpoint addr => exact setBreakpoint_sr addr s
  | completeInput b => exact completeInput_sr b s
  | completeOutput => exact completeOutput_sr s
  | resume => exact resume_sr s
  | readRegister | dumpMemory | clearBreakpoints | powerOff | observe => rfl

/-! ## No instruction but CSA reads SR (R16) -/

/-- A change of the state that no gate sees and every performed pulse carries along, the loop of pulses carries along. -/
theorem runPulses_comm (f : State → State) (ph : Phase) (cell : Fin 8 → State → State)
    (hphase : ∀ s, (f s).phase = s.phase) (hgate : ∀ s, (f s).canPulse = s.canPulse)
    (hpulse : ∀ s, performPulse cell (f s) = f (performPulse cell s)) (n : Nat) (s : State) :
    runPulses ph cell n (f s) = f (runPulses ph cell n s) := by
  induction n generalizing s with
  | zero => rfl
  | succ n ih =>
    simp only [runPulses, hphase, hgate, hpulse, ih]
    split <;> rfl

theorem jmaCell_writeReg_sr (a : Addr) (p : Fin 8) (s : State) (v : Word) :
    jmaCell a p (s.writeReg .sr v) = (jmaCell a p s).writeReg .sr v := by
  unfold jmaCell
  split
  · exact (apply_ite (State.writeReg · .sr v) (isNegative s.a = true) (s.writeReg .pc (jumpTarget a)) s).symm
  · rfl

/-- E0 of CSA is the one cell of the execute table that reads SR (R67). -/
theorem executeCell_writeReg_sr (i : Instr) (p : Fin 8) (s : State) (v : Word) (h : ∀ a, i ≠ .csa a) :
    executeCell i p (s.writeReg .sr v) = (executeCell i p s).writeReg .sr v := by
  cases i with
  | csa a => exact absurd rfl (h a)
  | jma a => exact jmaCell_writeReg_sr a p s v
  | _ => fin_cases p <;> rfl

theorem runExecute_writeReg_sr (i : Instr) (s : State) (v : Word) (h : ∀ a, i ≠ .csa a) :
    runExecute (executeCell i) (s.writeReg .sr v) = (runExecute (executeCell i) s).writeReg .sr v :=
  runPulses_comm (State.writeReg · .sr v) .execute (executeCell i) (fun _ => rfl) (fun _ => rfl)
    (fun t => congrArg State.advance (executeCell_writeReg_sr i t.pulse t v h)) _ s

theorem exec_writeReg_sr (i : Instr) (s t : State) (v : Word) (hcsa : ∀ a, i ≠ .csa a) (h : exec i s = .next t) :
    exec i (s.writeReg .sr v) = .next (t.writeReg .sr v) := by
  rw [exec_eq] at h ⊢
  cases h
  rw [runExecute_writeReg_sr i s v hcsa]

/-- Settles O44: the frame of SR under the table cells and the commands, and the cells' commuting with a change of SR. -/
theorem switchesAreTheHosts : Obligations.SwitchesAreTheHosts :=
  ⟨exec_sr, command_sr, exec_writeReg_sr⟩

end Sys2Proof.Machine

namespace Sys2Proof

/-! ## The decoder and the encoder invert each other (R49, R53, R54) -/

/-- Every instruction has the layout of R49 and its row of R53. -/
theorem layout_statement : ∀ i : Instr, Laws.Layout.Statement i
  | .hlt a => Laws.Layout.hlt a
  | .add a => Laws.Layout.add a
  | .xor a => Laws.Layout.xor a
  | .and a => Laws.Layout.and a
  | .ior a => Laws.Layout.ior a
  | .not a => Laws.Layout.not a
  | .lda a => Laws.Layout.lda a
  | .sta a => Laws.Layout.sta a
  | .srj a => Laws.Layout.srj a
  | .jma a => Laws.Layout.jma a
  | .jmp a => Laws.Layout.jmp a
  | .inp a => Laws.Layout.inp a
  | .out a => Laws.Layout.out a
  | .ral a => Laws.Layout.ral a
  | .csa a => Laws.Layout.csa a
  | .nop a => Laws.Layout.nop a

@[simp] theorem decodeWord_encode (i : Instr) : decodeWord (encode i) = i := by
  obtain ⟨hopcode, hfield, hinstr, _⟩ := layout_statement i
  rw [decodeWord, hopcode, hfield, hinstr]

/-- Entry `op` of the opcode map is the mnemonic whose words have opcode `op` (R53): the map and the encoder agree row by
row. -/
theorem encode_opcodeMap_instr (op : BitVec 4) (a : Addr) :
    encode ((opcodeMap.get op.toFin).instr a) = packWord op a := by
  obtain ⟨n⟩ := op
  fin_cases n <;> rfl

@[simp] theorem encode_decodeWord (w : Word) : encode (decodeWord w) = w := by
  rw [decodeWord, encode_opcodeMap_instr, packWord_fields]

/-- An instruction and its word determine each other (R54). -/
theorem encode_eq_iff (i : Instr) (w : Word) : encode i = w ↔ i = decodeWord w := by
  constructor
  · rintro rfl
    exact (decodeWord_encode i).symm
  · rintro rfl
    exact encode_decodeWord w

/-! ## The fields as numbers (R49) -/

theorem opcodeField_toNat (w : Word) : (opcodeField w).toNat = w.toNat / 4096 := by
  have hw := w.isLt
  rw [opcodeField, BitVec.extractLsb'_toNat, Nat.shiftRight_eq_div_pow]
  omega

theorem addressField_toNat (w : Word) : (addressField w).toNat = w.toNat % 4096 := by
  rw [addressField, BitVec.extractLsb'_toNat, Nat.shiftRight_zero]

/-- Settles O2: the decoder and the encoder are inverse to each other, and every meaning is the rest of an Execute phase. -/
theorem everyWordIsOneInstruction : Obligations.EveryWordIsOneInstruction :=
  ⟨fun w => ⟨encode_decodeWord w, fun i => (encode_eq_iff i w).mp⟩,
    fun w s => ⟨_, Machine.exec_eq (decodeWord w) s⟩,
    decodeWord_encode (.hlt 0x000#12)⟩

/-- Settles O3: the fields are the quotient and the remainder by 4096, so division with remainder gives the word back. -/
theorem oneWordTwoFields : Obligations.OneWordTwoFields := by
  refine ⟨fun _ _ => rfl, fun w => ⟨opcodeField_toNat w, addressField_toNat w, ?_⟩⟩
  rw [opcodeField_toNat, addressField_toNat, Nat.div_add_mod']

end Sys2Proof

namespace Sys2Proof.Machine

/-! ## The position after a pulse and after a hold (R60, R69) -/

@[simp] theorem currentCell_phase (p : Fin 8) (s : State) : (currentCell p s).phase = s.phase := by
  obtain ⟨hphase, _⟩ := currentCell_keeps p s
  exact hphase

@[simp] theorem currentCell_pulse (p : Fin 8) (s : State) : (currentCell p s).pulse = s.pulse := by
  obtain ⟨_, hpulse, _⟩ := currentCell_keeps p s
  exact hpulse

@[simp] theorem performPulse_currentCell_phase (s : State) :
    (performPulse currentCell s).phase = if s.pulse = 7 then s.phase.flip else s.phase := by
  simp [performPulse]

@[simp] theorem performPulse_currentCell_pulse (s : State) : (performPulse currentCell s).pulse = s.pulse + 1 := by
  simp [performPulse]

/-- A hold performs no pulse, so the position stays (R60); a breakpoint hit writes the bypass latch alone (R128). -/
theorem stepPulse_hold_position (s : State)
    (hhold : s.power = false ∨ s.halted = true ∨ s.breakpointFires = true ∨ s.io ≠ .idle) :
    (stepPulse s).state.pulse = s.pulse ∧ (stepPulse s).state.phase = s.phase := by
  obtain hstay | ⟨_, hhit⟩ | ⟨hcan, hquiet, _⟩ := stepPulse_state_cases s
  · rw [hstay]
    exact ⟨rfl, rfl⟩
  · rw [hhit]
    exact ⟨rfl, rfl⟩
  · obtain ⟨hpower, hhalted, hio⟩ := (canPulse_iff s).mp hcan
    simp [hpower, hhalted, hquiet, hio] at hhold

/-- Settles O11: no cell moves the position, so a performed pulse leaves it as the advance does; a hold performs none. -/
theorem performedPulseAdvances : Obligations.PerformedPulseAdvances := by
  refine fun s => ⟨fun hpower hhalted hio hquiet => ?_, stepPulse_hold_position s⟩
  rw [stepPulse_perform s ((canPulse_iff s).mpr ⟨hpower, hhalted, hio⟩) hquiet]
  by_cases hlast : s.pulse = 7
  · rw [if_pos hlast]
    refine ⟨?_, fun hphase => ?_, fun hphase => ?_⟩
    · simp [hlast]
    · simp [hlast, hphase, Phase.flip]
    · simp [hlast, hphase, Phase.flip]
  · have hnext : (s.pulse + 1).val = s.pulse.val + 1 := Fin.val_add_one_of_lt (Fin.lt_last_iff_ne_last.mpr hlast)
    simp [hlast, hnext]

end Sys2Proof.Machine

namespace Sys2Proof.Machine

/-! ## The ALU's functions as numbers (R88) -/

/-- `x[14:0] : x[15]` is the lower 15 bits doubled, plus the bit 15. -/
theorem aluRotl1_toNat (x : Word) : (aluRotl1 x).toNat = x.toNat % 32768 * 2 + x.toNat / 32768 := by
  have hsign : x.toNat / 32768 < 2 := Nat.div_lt_of_lt_mul x.isLt
  have hbit : (x.extractLsb' 15 1).toNat = x.toNat / 32768 := by
    rw [BitVec.extractLsb'_toNat, Nat.shiftRight_eq_div_pow, Nat.mod_eq_of_lt hsign]
  have hrest : (x.extractLsb' 0 15).toNat = x.toNat % 32768 := by
    rw [BitVec.extractLsb'_toNat, Nat.shiftRight_zero]
  rw [aluRotl1, BitVec.toNat_append, hbit, hrest, ← Nat.shiftLeft_add_eq_or_of_lt hsign, Nat.shiftLeft_eq, pow_one]

/-! ## The three readings of the overflow (R88) -/

/-- The sign bits: bit 15 agrees in the operands and changes in the sum. -/
theorem addOverflow_iff_bit15 (x y : Word) :
    addOverflow x y = true ↔ x.getLsbD 15 = y.getLsbD 15 ∧ (aluAdd x y).getLsbD 15 ≠ x.getLsbD 15 := by
  simp only [addOverflow, aluAdd, BitVec.msb_eq_getLsbD_last, Bool.and_eq_true, beq_iff_eq, bne_iff_ne]

/-- The library's signed overflow of an addition has the model's expression. -/
theorem addOverflow_eq_saddOverflow (x y : Word) : addOverflow x y = x.saddOverflow y :=
  (BitVec.saddOverflow_eq x y).symm

/-- The two's-complement sum: it lies outside the range of a word. -/
theorem addOverflow_iff_toInt (x y : Word) :
    addOverflow x y = true ↔ x.toInt + y.toInt < -32768 ∨ 32767 < x.toInt + y.toInt := by
  rw [addOverflow_eq_saddOverflow, BitVec.saddOverflow, Bool.or_eq_true, decide_eq_true_iff, decide_eq_true_iff]
  omega

/-- The carries: bit 15 of the sum is the exclusive or of the operands' bits 15 and the carry in, and the carry out is
their majority, so the signs change against equal operands just when the two carries differ. -/
theorem addOverflow_eq_xor_carry (x y : Word) :
    addOverflow x y = (BitVec.carry 15 x y false ^^ BitVec.carry 16 x y false) := by
  have hsum : (x + y).getLsbD 15 = (x.getLsbD 15 ^^ (y.getLsbD 15 ^^ BitVec.carry 15 x y false)) :=
    BitVec.getLsbD_add (by decide) x y
  have hout : BitVec.carry 16 x y false =
      Bool.atLeastTwo (x.getLsbD 15) (y.getLsbD 15) (BitVec.carry 15 x y false) :=
    BitVec.carry_succ 15 x y false
  simp only [addOverflow, BitVec.msb_eq_getLsbD_last, hsum, hout]
  generalize x.getLsbD 15 = a, y.getLsbD 15 = b, BitVec.carry 15 x y false = c
  revert a b c
  decide

theorem addOverflow_iff_carries (x y : Word) :
    addOverflow x y = true ↔
      (x.toNat % 32768 + y.toNat % 32768) / 32768 ≠ (x.toNat + y.toNat) / 65536 := by
  have hx := x.isLt
  have hy := y.isLt
  rw [addOverflow_eq_xor_carry, Bool.xor_iff_ne, BitVec.carry, BitVec.carry, Ne, decide_eq_decide, Bool.toNat_false]
  omega

/-- Settles O6: the library's equation of each word operation, and the three readings of the overflow. -/
theorem aluComputesItsFunctions : Obligations.AluComputesItsFunctions := fun x y =>
  ⟨BitVec.toNat_add x y, fun _ => BitVec.getLsbD_xor, fun _ => BitVec.getLsbD_and, fun _ => BitVec.getLsbD_or,
    BitVec.toNat_not, aluRotl1_toNat x, addOverflow_iff_bit15 x y, addOverflow_iff_toInt x y,
    addOverflow_iff_carries x y⟩

end Sys2Proof.Machine

namespace Sys2Proof.Machine

/-! ## A pending transfer (R70, R109) -/

/-- A transfer is pending in the middle of an Execute phase only (R32). -/
theorem State.Inv.phase_of_pending {s : State} (hinv : s.Inv) (hpending : s.io ≠ .idle) : s.phase = .execute := by
  obtain ⟨hin, hout, _⟩ := hinv
  cases hio : s.io with
  | idle => exact absurd hio hpending
  | awaitIn => exact (hin hio).1
  | awaitOut => exact (hout hio).1

/-- The engine halts at a cycle boundary only (R32), so not while a transfer is pending. -/
theorem State.Inv.not_halted_of_pending {s : State} (hinv : s.Inv) (hpending : s.io ≠ .idle) : s.halted = false := by
  have hexecute : s.phase = .execute := hinv.phase_of_pending hpending
  obtain ⟨_, _, hhalt, _⟩ := hinv
  refine Bool.eq_false_iff.mpr fun hhalted => ?_
  obtain ⟨hfetch, _⟩ := hhalt hhalted
  simp [hexecute] at hfetch

theorem statusOf_awaitIn {s : State} (hhalted : s.halted = false) (hio : s.io = .awaitIn) :
    statusOf s = .awaitingInput := by
  simp [statusOf, hhalted, hio]

theorem statusOf_awaitOut {s : State} (hhalted : s.halted = false) (hio : s.io = .awaitOut) :
    statusOf s = .awaitingOutput := by
  simp [statusOf, hhalted, hio]

/-- `Continuing` is the status of an idle handshake only (R76). -/
theorem statusOf_ne_continuing {s : State} (hpending : s.io ≠ .idle) : statusOf s ≠ .continuing := by
  cases hhalted : s.halted with
  | true => simp [statusOf, hhalted]
  | false =>
    cases hio : s.io with
    | idle => exact absurd hio hpending
    | awaitIn => simp [statusOf_awaitIn hhalted hio]
    | awaitOut => simp [statusOf_awaitOut hhalted hio]

theorem breakpointFires_of_execute {s : State} (hphase : s.phase = .execute) : s.breakpointFires = false := by
  refine Bool.eq_false_iff.mpr fun hfires => ?_
  obtain ⟨hfetch, _⟩ := (atBoundary_iff s).mp (breakpointFires_atBoundary s hfires)
  simp [hphase] at hfetch

/-- A transfer is pending and no check before its own stops the pulse: the status says which side is awaited (R69 step 3). -/
theorem stepPulse_pending {s : State} (hpower : s.power = true) (hhalted : s.halted = false)
    (hquiet : s.breakpointFires = false) (hpending : s.io ≠ .idle) :
    stepPulse s = { state := s, status := statusOf s, overflow := false } := by
  cases hio : s.io with
  | idle => exact absurd hio hpending
  | awaitIn => simp [stepPulse, statusOf_awaitIn hhalted hio, hpower, hhalted, hquiet, hio]
  | awaitOut => simp [stepPulse, statusOf_awaitOut hhalted hio, hpower, hhalted, hquiet, hio]

/-- A `RunCycle` whose first pulse does not answer `Continuing` is that `StepPulse` (R77). -/
theorem runCycle_of_stop {s : State} (hstop : (stepPulse s).status ≠ .continuing) : runCycle s = stepPulse s := by
  rw [runCycle, runCycleLoop_succ, if_pos (.inl hstop), Bool.false_or]

/-- Under the invariant a pending transfer holds `StepPulse` and `RunCycle` alike: neither a halt nor a breakpoint can come
before it, for both stand at a cycle boundary. -/
theorem pulses_pending {s : State} (hinv : s.Inv) (hpower : s.power = true) (hpending : s.io ≠ .idle) :
    stepPulse s = { state := s, status := statusOf s, overflow := false } ∧
    runCycle s = { state := s, status := statusOf s, overflow := false } := by
  have hquiet : s.breakpointFires = false := breakpointFires_of_execute (hinv.phase_of_pending hpending)
  have hpulse := stepPulse_pending hpower (hinv.not_halted_of_pending hpending) hquiet hpending
  have hstop : (stepPulse s).status ≠ .continuing := by
    rw [hpulse]
    exact statusOf_ne_continuing hpending
  exact ⟨hpulse, (runCycle_of_stop hstop).trans hpulse⟩

/-- Settles O16: a pending transfer holds the pulse and the cycle, and the status is the awaited side of `io`. -/
theorem pendingTransferHolds : Obligations.PendingTransferHolds := by
  refine fun s hinv hpower => ⟨fun hio => ?_, fun hio => ?_⟩
  · have hpending : s.io ≠ .idle := by simp [hio]
    rw [← statusOf_awaitIn (hinv.not_halted_of_pending hpending) hio]
    exact pulses_pending hinv hpower hpending
  · have hpending : s.io ≠ .idle := by simp [hio]
    rw [← statusOf_awaitOut (hinv.not_halted_of_pending hpending) hio]
    exact pulses_pending hinv hpower hpending

end Sys2Proof.Machine

namespace Sys2Proof.Machine

/-! ## With power off nothing is served (R74, R112, R113, R133) -/

/-- Power off stops the pulse before every other check (R69 step 1). -/
theorem stepPulse_off {s : State} (hoff : s.power = false) :
    stepPulse s = { state := s, status := .halted, overflow := false } :=
  stepPulse_halted s (.inl hoff)

/-- The first pulse already answers `Halted`, so the cycle ends there (R77). -/
theorem runCycle_off {s : State} (hoff : s.power = false) :
    runCycle s = { state := s, status := .halted, overflow := false } := by
  have hstop : (stepPulse s).status ≠ .continuing := by simp [stepPulse_off hoff]
  exact (runCycle_of_stop hstop).trans (stepPulse_off hoff)

theorem completeInput_off {s : State} (b : Byte) (hoff : s.power = false) : completeInput b s = (s, .ignored) := by
  simp [completeInput, State.inputPending, hoff]

theorem completeOutput_off {s : State} (hoff : s.power = false) : completeOutput s = (s, .ignored) := by
  simp [completeOutput, State.outputPending, hoff]

theorem resume_off {s : State} (hoff : s.power = false) : resume s = s := by
  simp [resume, hoff]

/-! ## Only `Construct` sets power (R133) -/

@[simp] theorem loadProgram_power (words : List Word) (s : State) : (loadProgram words s).1.power = s.power := by
  unfold loadProgram; split <;> rfl

@[simp] theorem writeRegister_power (sel : Fin 16) (v : Word) (s : State) :
    (writeRegister sel v s).1.power = s.power := by
  unfold writeRegister
  split
  · exact writeReg_power s _ v
  · rfl

@[simp] theorem setBreakpoint_power (addr : Nat) (s : State) : (setBreakpoint addr s).1.power = s.power := by
  unfold setBreakpoint; split <;> rfl

/-- A program is loaded with power off as well, but no cycle of its run performs a pulse (R79, R82). -/
theorem runProgram_power_off {s : State} (cycles : Nat) (words : List Word) (hoff : s.power = false) :
    (runProgram cycles words s).1.power = false := by
  have hpulse (t : State) (ht : t.power = false) : (stepPulse t).state.power = false := by
    rw [stepPulse_off ht]
    exact ht
  unfold runProgram
  split
  · exact runProgramLoop_induct hpulse cycles _ ((loadProgram_power words s).trans hoff)
  · exact hoff

/-- An engine that is off stays off under every command that does not build a new one. -/
theorem command_power_off {c : Command} {s : State} (hnew : ∀ cfg, c ≠ .construct cfg) (hoff : s.power = false) :
    (command c s).1.power = false := by
  cases c with
  | construct cfg => exact absurd rfl (hnew cfg)
  | powerOff => rfl
  | stepPulse => simpa only [command, stepPulse_off hoff] using hoff
  | runCycle => simpa only [command, runCycle_off hoff] using hoff
  | runProgram cycles words => exact runProgram_power_off cycles words hoff
  | loadProgram words => exact (loadProgram_power words s).trans hoff
  | writeRegister sel v => exact (writeRegister_power sel v s).trans hoff
  | setBreakpoint addr => exact (setBreakpoint_power addr s).trans hoff
  | completeInput b => simpa only [command, completeInput_off b hoff] using hoff
  | completeOutput => simpa only [command, completeOutput_off hoff] using hoff
  | resume => simpa only [command, resume_off hoff] using hoff
  | readRegister | dumpMemory | clearBreakpoints | observe => exact hoff

/-- Settles O46: power off comes before every other check of a pulse and of a completion, no command but `Construct` sets
power, and the engine that `Construct` builds is the one at reset. -/
theorem powerOffIsFinal : Obligations.PowerOffIsFinal := by
  refine ⟨fun _ => rfl, fun s b hoff => ⟨?_, ?_, ?_, ?_⟩, fun _ _ => command_power_off, fun _ _ _ => rfl⟩
  · rw [stepPulse_off hoff]
  · rw [runCycle_off hoff]
  · rw [command, completeInput_off b hoff]
  · rw [command, completeOutput_off hoff]

end Sys2Proof.Machine

namespace Sys2Proof

/-! ## The word of an instruction (R49, R53) -/

/-- The mask 0xF000 keeps the opcode (R53's match column). -/
theorem opcodeField_of_masked {w v : Word} (hmask : w &&& 0xF000#16 = v) : opcodeField w = opcodeField v := by
  have hkeep : (0xF000#16).extractLsb' 12 4 = BitVec.allOnes 4 := by decide
  rw [← hmask, opcodeField, opcodeField, BitVec.extractLsb'_and, hkeep, BitVec.and_allOnes]

/-- A word decodes by its opcode's entry of the map, with its own address field (R52). -/
theorem decodeWord_of_opcode {w : Word} {op : BitVec 4} (hop : opcodeField w = op) :
    decodeWord w = (opcodeMap.get op.toFin).instr (addressField w) := by
  rw [decodeWord, hop]

/-- A word that matches `v` under the mask 0xF000 decodes by the opcode of `v` (R53). -/
theorem decodeWord_of_masked {w v : Word} (hmask : w &&& 0xF000#16 = v) :
    decodeWord w = (opcodeMap.get (opcodeField v).toFin).instr (addressField w) :=
  decodeWord_of_opcode (opcodeField_of_masked hmask)

/-- Settles O1: the layout of a word gives the opcode's mnemonic and the field back. -/
theorem decodeOfEncode : Obligations.DecodeOfEncode := fun i _ => decodeWord_encode i

/-- Settles O4: the six words are the words of the six instructions, bit by bit. -/
theorem wordsOfTheTableDecode : Obligations.WordsOfTheTableDecode := by
  refine ⟨?_, ?_, ?_, ?_, ?_, ?_⟩ <;> decide

end Sys2Proof

namespace Sys2Proof.Machine

/-- Settles O5: the rows of the execute table of these five do not mention the field. -/
theorem unusedFieldIsIgnored : Obligations.UnusedFieldIsIgnored :=
  fun _ _ _ => ⟨rfl, rfl, rfl, rfl, rfl⟩

/-! ## Arithmetic of the ALU (R89, R98) -/

theorem aluAdd_comm (x y : Word) : aluAdd x y = aluAdd y x := BitVec.add_comm x y

/-- The library's signed sum does not depend on the order. -/
theorem addOverflow_comm (x y : Word) : addOverflow x y = addOverflow y x := by
  rw [addOverflow_eq_saddOverflow, addOverflow_eq_saddOverflow, BitVec.saddOverflow, BitVec.saddOverflow,
    Int.add_comm]

theorem aluAdd_aluNot_one (x : Word) : aluAdd (aluNot x) 1#16 = -x := (BitVec.neg_eq_not_add x).symm

/-- Settles O7: NOT and ADD of 1 negate, so adding the negation subtracts. -/
theorem additionLaws : Obligations.AdditionLaws := by
  refine ⟨fun x y => ⟨aluAdd_comm x y, addOverflow_comm x y⟩, BitVec.add_assoc, aluAdd_aluNot_one, fun x m => ?_⟩
  rw [aluAdd_aluNot_one, aluAdd_comm, aluAdd, BitVec.sub_eq_add_neg]

/-! ## The left rotation (R10, R96) -/

/-- RAL's rotation is the library's. -/
theorem aluRotl1_eq_rotateLeft (x : Word) : aluRotl1 x = x.rotateLeft 1 := by
  refine BitVec.eq_of_getLsbD_eq fun i hi => ?_
  simp only [aluRotl1, BitVec.getLsbD_append, BitVec.getLsbD_extractLsb', BitVec.getLsbD_rotateLeft]
  by_cases hzero : i = 0
  · simp [hzero]
  · simp [show ¬ i < 1 by omega, show i - 1 < 15 by omega, hi]

/-- Each bit comes from the place below it, bit 0 from bit 15. -/
theorem getLsbD_aluRotl1 (x : Word) {i : Nat} (hi : i < 16) :
    (aluRotl1 x).getLsbD i = x.getLsbD ((i + 15) % 16) := by
  rw [aluRotl1_eq_rotateLeft, BitVec.getLsbD_rotateLeft]
  by_cases hzero : i = 0
  · simp [hzero]
  · have hback : (i + 15) % 16 = i - 1 := by omega
    simp [hback, show ¬ i < 1 by omega, hi]

theorem getLsbD_aluRotl1_iterate (k : Nat) (x : Word) {i : Nat} (hi : i < 16) :
    (aluRotl1^[k] x).getLsbD i = x.getLsbD ((i + 15 * k) % 16) := by
  induction k generalizing i with
  | zero => simp [Nat.mod_eq_of_lt hi]
  | succ k ih =>
    rw [Function.iterate_succ_apply', getLsbD_aluRotl1 _ hi, ih (Nat.mod_lt _ (by decide))]
    congr 1
    omega

/-- Settles O8: sixteen rotations move every bit by 240 places, which is 0 modulo 16. -/
theorem sixteenRotationsRestore : Obligations.SixteenRotationsRestore := by
  refine fun x => ⟨BitVec.eq_of_getLsbD_eq fun i hi => ?_, fun i hi => getLsbD_aluRotl1 x hi⟩
  rw [getLsbD_aluRotl1_iterate 16 x hi]
  congr 1
  omega

end Sys2Proof.Machine

namespace Sys2Proof.Machine

/-! ## What one cell of the execute table can do (R67) -/

/-- The registers that the row of an instruction writes. -/
def writtenRegs : Instr → List Reg
  | .add _ | .xor _ | .and _ | .ior _ => [.mar, .mbr, .z, .a]
  | .not _ | .ral _ | .csa _ => [.a]
  | .lda _ => [.mar, .mbr, .a]
  | .sta _ => [.mar, .mbr]
  | .srj _ => [.mar, .mbr, .pc]
  | .jma _ | .jmp _ => [.pc]
  | .inp _ => [.dsl]
  | .out _ => [.dsl, .dol]
  | .hlt _ | .nop _ => []

/-- The effects a cell can have: none, one register of its row (PC only below 4096, D5), or one of the six transfers that
touch more than a register, each at the one place of the table where it stands. -/
inductive CellEffect : Instr → Fin 8 → State → State → Prop where
  | idle (i : Instr) (p : Fin 8) (s : State) : CellEffect i p s s
  | write (i : Instr) (p : Fin 8) (s : State) (r : Reg) (v : Word) (hrow : r ∈ writtenRegs i)
      (hpc : r = .pc → v.toNat < 4096) : CellEffect i p s (s.writeReg r v)
  | sum (a : Addr) (s : State) :
      CellEffect (.add a) 3 s ((s.writeReg .a (aluAdd s.a s.z)).setOvf (addOverflow s.a s.z))
  | storeA (a : Addr) (s : State) : CellEffect (.sta a) 2 s s.writeMemory
  | storePc (a : Addr) (s : State) : CellEffect (.srj a) 2 s s.writeMemory
  | halt (a : Addr) (s : State) : CellEffect (.hlt a) 7 s (s.setHalted true)
  | awaitIn (a : Addr) (s : State) :
      CellEffect (.inp a) 0 s ((s.writeReg .dsl (deviceSelector a)).setHandshake .awaitIn false)
  | awaitOut (a : Addr) (s : State) :
      CellEffect (.out a) 1 s ((s.writeReg .dol (outputByte s.a)).setHandshake .awaitOut false)

/-- A zero-extended address is below 4096 (R15). -/
theorem zext16_toNat_lt (a : Addr) : (zext16 a).toNat < 4096 := by
  have ha := a.isLt
  rw [zext16, BitVec.toNat_setWidth]
  omega

/-- A register other than PC, written by a row that names it. -/
theorem CellEffect.latch {i : Instr} {p : Fin 8} {s : State} (r : Reg) {v : Word}
    (hrow : r ∈ writtenRegs i := by simp [writtenRegs]) (hne : r ≠ .pc := by simp) :
    CellEffect i p s (s.writeReg r v) :=
  .write i p s r v hrow fun h => absurd h hne

/-- PC, written with a zero-extended address by a row that names it. -/
theorem CellEffect.jump {i : Instr} {p : Fin 8} {s : State} (a : Addr)
    (hrow : Reg.pc ∈ writtenRegs i := by simp [writtenRegs]) : CellEffect i p s (s.writeReg .pc (zext16 a)) :=
  .write i p s .pc _ hrow fun _ => zext16_toNat_lt a

/-- The execute table, row by row (R67). -/
theorem executeCell_effect (i : Instr) (p : Fin 8) (s : State) : CellEffect i p s (executeCell i p s) := by
  cases i with
  | hlt a => simp only [executeCell]; unfold hltCell; split; exacts [.halt a s, .idle _ _ s]
  | add a =>
    simp only [executeCell]; unfold addCell; split
    exacts [.latch .mar, .latch .mbr, .latch .z, .sum a s, .idle _ _ s]
  | xor a =>
    simp only [executeCell]; unfold xorCell; split
    exacts [.latch .mar, .latch .mbr, .latch .z, .latch .a, .idle _ _ s]
  | and a =>
    simp only [executeCell]; unfold andCell; split
    exacts [.latch .mar, .latch .mbr, .latch .z, .latch .a, .idle _ _ s]
  | ior a =>
    simp only [executeCell]; unfold iorCell; split
    exacts [.latch .mar, .latch .mbr, .latch .z, .latch .a, .idle _ _ s]
  | not a => simp only [executeCell]; unfold notCell; split; exacts [.latch .a, .idle _ _ s]
  | ral a => simp only [executeCell]; unfold ralCell; split; exacts [.latch .a, .idle _ _ s]
  | csa a => simp only [executeCell]; unfold csaCell; split; exacts [.latch .a, .idle _ _ s]
  | lda a =>
    simp only [executeCell]; unfold ldaCell; split
    exacts [.latch .mar, .latch .mbr, .latch .a, .idle _ _ s]
  | sta a =>
    simp only [executeCell]; unfold staCell; split
    exacts [.latch .mar, .latch .mbr, .storeA a s, .idle _ _ s]
  | srj a =>
    simp only [executeCell]; unfold srjCell; split
    exacts [.latch .mar, .latch .mbr, .storePc a s, .jump (a + 1#12), .idle _ _ s]
  | jma a =>
    simp only [executeCell]; unfold jmaCell; split
    · split
      exacts [.jump a, .idle _ _ s]
    · exact .idle _ _ s
  | jmp a => simp only [executeCell]; unfold jmpCell; split; exacts [.jump a, .idle _ _ s]
  | inp a => simp only [executeCell]; unfold inpCell; split; exacts [.awaitIn a s, .idle _ _ s]
  | out a =>
    simp only [executeCell]; unfold outCell; split
    exacts [.latch .dsl, .awaitOut a s, .idle _ _ s]
  | nop a => exact .idle _ _ s

namespace CellEffect

variable {i : Instr} {p : Fin 8} {s t : State}

theorem readReg_eq (h : CellEffect i p s t) {r : Reg} (hr : r ∉ writtenRegs i) : t.readReg r = s.readReg r := by
  cases h with
  | write i p s q v hrow => exact readReg_writeReg_ne s q r v fun e => hr (e ▸ hrow)
  | idle | storeA | storePc | halt => rfl
  | sum a s => simp_all [writtenRegs, readReg_writeReg_ne]
  | awaitIn a s => simp_all [writtenRegs, readReg_writeReg_ne]
  | awaitOut a s => simp_all [writtenRegs, readReg_writeReg_ne]

/-- Memory is written at E2 of STA and of SRJ alone, with MBR at MAR. -/
theorem ram_cases (h : CellEffect i p s t) :
    t.ram = s.ram ∨
    (p = 2 ∧ ((∃ a, i = .sta a) ∨ ∃ a, i = .srj a) ∧ t.ram = Memory.write s.ram (addressField s.mar) s.mbr) := by
  cases h with
  | write i p s q v => exact .inl (writeReg_ram s q v)
  | storeA a s => exact .inr ⟨rfl, .inl ⟨a, rfl⟩, rfl⟩
  | storePc a s => exact .inr ⟨rfl, .inr ⟨a, rfl⟩, rfl⟩
  | _ => exact .inl rfl

/-- The handshake moves at E0 of INP and at E1 of OUT alone (D11, D12). -/
theorem handshake_cases (h : CellEffect i p s t) :
    (t.io = s.io ∧ t.ready = s.ready) ∨
    (p = 0 ∧ (∃ a, i = .inp a) ∧ t.io = .awaitIn ∧ t.ready = false) ∨
    (p = 1 ∧ (∃ a, i = .out a) ∧ t.io = .awaitOut ∧ t.ready = false) := by
  cases h with
  | write i p s q v => exact .inl ⟨writeReg_io s q v, writeReg_ready s q v⟩
  | awaitIn a s => exact .inr (.inl ⟨rfl, ⟨a, rfl⟩, rfl, rfl⟩)
  | awaitOut a s => exact .inr (.inr ⟨rfl, ⟨a, rfl⟩, rfl, rfl⟩)
  | _ => exact .inl ⟨rfl, rfl⟩

/-- `halted` is set at E7 of HLT alone (D8). -/
theorem halted_cases (h : CellEffect i p s t) :
    t.halted = s.halted ∨ (p = 7 ∧ (∃ a, i = .hlt a) ∧ t.halted = true) := by
  cases h with
  | write i p s q v => exact .inl (writeReg_halted s q v)
  | halt a s => exact .inr ⟨rfl, ⟨a, rfl⟩, rfl⟩
  | _ => exact .inl rfl

/-- OVF is written by ADD alone (D7). -/
theorem ovf_eq (h : CellEffect i p s t) (hi : ∀ a, i ≠ .add a) : t.ovf = s.ovf := by
  cases h with
  | write i p s q v => exact writeReg_ovf s q v
  | sum a s => exact absurd rfl (hi a)
  | _ => rfl

/-- A cell keeps PC or loads an effective address (D5). -/
theorem pc_cases (h : CellEffect i p s t) : t.pc = s.pc ∨ t.pc.toNat < 4096 := by
  cases h with
  | write i p s q v hrow hpc =>
    rw [writeReg_pc]
    split
    · exact .inr (hpc ‹_›)
    · exact .inl rfl
  | _ => exact .inl rfl

end CellEffect

/-! ## What an instruction leaves unchanged, from every state -/

/-- What every cell of the row and the advance keep, the instruction keeps. -/
theorem exec_keeps {α : Type} (f : State → α) {i : Instr} (hadv : ∀ s, f s.advance = f s)
    (hcell : ∀ p s, f (executeCell i p s) = f s) {s t : State} (h : exec i s = .next t) : f t = f s := by
  rw [exec_eq] at h
  cases h
  exact runPulses_induct (P := fun u => f u = f s) .execute (executeCell i)
    (fun u _ _ hu => (hadv _).trans ((hcell u.pulse u).trans hu)) _ s rfl

section Frames

variable {i : Instr} {s t : State}

theorem exec_readReg (h : exec i s = .next t) {r : Reg} (hr : r ∉ writtenRegs i) : t.readReg r = s.readReg r :=
  exec_keeps (State.readReg · r) (fun u => advance_readReg u r)
    (fun p u => (executeCell_effect i p u).readReg_eq hr) h

theorem exec_ram (h : exec i s = .next t) (hsta : ∀ a, i ≠ .sta a) (hsrj : ∀ a, i ≠ .srj a) : t.ram = s.ram := by
  refine exec_keeps State.ram advance_ram (fun p u => ?_) h
  obtain hram | ⟨_, ⟨a, hi⟩ | ⟨a, hi⟩, _⟩ := (executeCell_effect i p u).ram_cases
  · exact hram
  · exact absurd hi (hsta a)
  · exact absurd hi (hsrj a)

theorem exec_memoryKept (h : exec i s = .next t) (hsta : ∀ a, i ≠ .sta a) (hsrj : ∀ a, i ≠ .srj a) : MemoryKept s t :=
  fun x => by rw [exec_ram h hsta hsrj]

theorem exec_handshakeKept (h : exec i s = .next t) (hinp : ∀ a, i ≠ .inp a) (hout : ∀ a, i ≠ .out a) :
    HandshakeKept s t := by
  have hcell (p : Fin 8) (u : State) :
      (executeCell i p u).io = u.io ∧ (executeCell i p u).ready = u.ready := by
    obtain hkept | ⟨_, ⟨a, hi⟩, _⟩ | ⟨_, ⟨a, hi⟩, _⟩ := (executeCell_effect i p u).handshake_cases
    · exact hkept
    · exact absurd hi (hinp a)
    · exact absurd hi (hout a)
  exact ⟨exec_keeps State.io advance_io (fun p u => (hcell p u).1) h,
    exec_keeps State.ready advance_ready (fun p u => (hcell p u).2) h⟩

theorem exec_halted (h : exec i s = .next t) (hhlt : ∀ a, i ≠ .hlt a) : t.halted = s.halted := by
  refine exec_keeps State.halted advance_halted (fun p u => ?_) h
  obtain hkept | ⟨_, ⟨a, hi⟩, _⟩ := (executeCell_effect i p u).halted_cases
  · exact hkept
  · exact absurd hi (hhlt a)

theorem exec_ovf (h : exec i s = .next t) (hadd : ∀ a, i ≠ .add a) : t.ovf = s.ovf :=
  exec_keeps State.ovf advance_ovf (fun p u => (executeCell_effect i p u).ovf_eq hadd) h

/-- No instruction touches the power, the breakpoints, the bypass latch or the host's commands. -/
theorem exec_debugKept (h : exec i s = .next t) : DebugKept s t := by
  have hcell (p : Fin 8) (u : State) := executeCell_keeps i p u
  refine ⟨exec_keeps State.power advance_power (fun p u => ?_) h, exec_keeps State.bp advance_bp (fun p u => ?_) h,
    exec_keeps State.bpskip advance_bpskip (fun p u => ?_) h,
    exec_keeps State.hostQueue advance_hostQueue (fun p u => ?_) h⟩ <;>
  obtain ⟨_, _, _, hpower, hbp, hbpskip, _, _, hqueue⟩ := hcell p u
  exacts [hpower, hbp, hbpskip, hqueue]

end Frames

/-- Settles O38: the cells of the four rows write MAR, MBR, Z and A, and E3 of ADD also OVF. -/
theorem twoOperandAluFrame : Obligations.TwoOperandAluFrame := by
  intro a i s t hi h
  simp only [List.mem_cons, List.not_mem_nil, or_false] at hi
  obtain rfl | rfl | rfl | rfl := hi
  all_goals
    refine ⟨fun r => exec_readReg h, exec_memoryKept h (by simp) (by simp),
      exec_handshakeKept h (by simp) (by simp), exec_debugKept h, exec_halted h (by simp), fun hadd => ?_⟩
  · exact absurd rfl hadd
  all_goals exact exec_ovf h (by simp)

/-- Settles O39: the cells of the three rows write A alone. -/
theorem accumulatorFrame : Obligations.AccumulatorFrame := by
  intro a i s t hi h
  simp only [List.mem_cons, List.not_mem_nil, or_false] at hi
  obtain rfl | rfl | rfl := hi
  all_goals
    exact ⟨fun r => exec_readReg h, exec_memoryKept h (by simp) (by simp),
      exec_handshakeKept h (by simp) (by simp), exec_debugKept h, exec_halted h (by simp), exec_ovf h (by simp)⟩

/-- Settles O40: the cells of the row of LDA write MAR, MBR and A alone. -/
theorem loadFrame : Obligations.LoadFrame := fun a s t h =>
  ⟨fun r => exec_readReg h, exec_memoryKept h (by simp) (by simp), exec_handshakeKept h (by simp) (by simp),
    exec_debugKept h, exec_halted h (by simp), exec_ovf h (by simp)⟩

/-- Settles O42: the cells of JMA and JMP write PC alone, those of HLT `halted` alone, those of NOP nothing. -/
theorem controlFrame : Obligations.ControlFrame := by
  intro a i s t hi h
  simp only [List.mem_cons, List.not_mem_nil, or_false] at hi
  have hregs : RegsKeptBut (writtenRegs i) s t := fun r => exec_readReg h
  obtain rfl | rfl | rfl | rfl := hi
  all_goals
    refine ⟨by simpa [writtenRegs] using hregs, exec_memoryKept h (by simp) (by simp),
      exec_handshakeKept h (by simp) (by simp), exec_debugKept h, exec_ovf h (by simp), fun hhlt => ?_⟩
  case inr.inr.inl => exact absurd rfl hhlt
  all_goals exact exec_halted h (by simp)

/-- Settles O43: the cells of INP write DSL, those of OUT DSL and DOL, besides the handshake. -/
theorem inputOutputFrame : Obligations.InputOutputFrame := by
  intro a i s t hi h
  simp only [List.mem_cons, List.not_mem_nil, or_false] at hi
  have hregs : RegsKeptBut (writtenRegs i) s t := fun r => exec_readReg h
  obtain rfl | rfl := hi
  all_goals
    exact ⟨by simpa [writtenRegs] using hregs, exec_memoryKept h (by simp) (by simp), exec_debugKept h,
      exec_halted h (by simp), exec_ovf h (by simp)⟩

end Sys2Proof.Machine

namespace Sys2Proof.Machine

/-! ## A phase is its row of cells (R61, R62)

Eight turns of the loop reach the end of a phase from every pulse, so the loop from a pulse on is the cells from that pulse
on, one after another, unless one of them stops the engine. -/

/-- The position is nothing to the cells of a row: they neither read nor write it. -/
abbrev IgnoresPosition (cell : Fin 8 → State → State) : Prop :=
  ∀ p s ph q, cell p (s.setPosition ph q) = (cell p s).setPosition ph q

theorem executeCell_ignoresPosition (i : Instr) : IgnoresPosition (executeCell i) := by
  intro p s ph q
  cases i with
  | jma a =>
    simp only [executeCell]; unfold jmaCell; split
    · exact (apply_ite (State.setPosition · ph q) (isNegative s.a = true) (s.writeReg .pc (jumpTarget a)) s).symm
    · rfl
  | _ => fin_cases p <;> rfl

theorem fetchCell_ignoresPosition : IgnoresPosition fetchCell := by
  intro p s ph q
  fin_cases p <;> rfl

theorem flip_ne (ph : Phase) : ph.flip ≠ ph := by cases ph <;> decide

theorem val_succ_of_ne_last {p : Fin 8} (hne : p ≠ 7) : (p + 1).val = p.val + 1 :=
  Fin.val_add_one_of_lt (Fin.lt_last_iff_ne_last.mpr hne)

theorem setPosition_setPosition (s : State) (ph ph' : Phase) (p p' : Fin 8) :
    (s.setPosition ph p).setPosition ph' p' = s.setPosition ph' p' := rfl

theorem setPosition_canPulse (s : State) (ph : Phase) (p : Fin 8) : (s.setPosition ph p).canPulse = s.canPulse := rfl

section Phases

variable {cell : Fin 8 → State → State} (hcell : IgnoresPosition cell)
include hcell

/-- A performed pulse (R60): the cell of the current pulse, and the next position. -/
theorem performPulse_eq {s : State} {ph : Phase} {p : Fin 8} (hphase : s.phase = ph) (hpulse : s.pulse = p) :
    performPulse cell s = (cell p s).setPosition (if p = 7 then ph.flip else ph) (p + 1) := by
  have hkept : cell p s = (cell p s).setPosition ph p := by
    rw [← hcell, ← hphase, ← hpulse]
    rfl
  rw [performPulse, hpulse, hkept]
  rfl

/-- After the last pulse of a phase the loop of that phase stops. -/
theorem runPulses_after_last (n : Nat) {ph : Phase} {s : State} (hphase : s.phase = ph) (hlast : s.pulse = 7) :
    runPulses ph cell n (performPulse cell s) = performPulse cell s := by
  refine runPulses_stop ph cell n _ fun ⟨hsame, _⟩ => ?_
  rw [performPulse_eq hcell hphase hlast, setPosition_phase, if_pos rfl] at hsame
  exact flip_ne ph hsame

/-- Turns of the loop beyond the end of the phase do nothing. -/
theorem runPulses_fuel (ph : Phase) (n : Nat) (s : State) (hn : 8 ≤ n + s.pulse.val) :
    runPulses ph cell (n + 1) s = runPulses ph cell n s := by
  induction n generalizing s with
  | zero => have := s.pulse.isLt; omega
  | succ n ih =>
    by_cases hgate : s.phase = ph ∧ s.canPulse = true
    · obtain ⟨hphase, hcan⟩ := hgate
      rw [runPulses_perform ph cell (n + 1) s hphase hcan, runPulses_perform ph cell n s hphase hcan]
      by_cases hlast : s.pulse = 7
      · rw [runPulses_after_last hcell _ hphase hlast, runPulses_after_last hcell _ hphase hlast]
      · refine ih _ ?_
        rw [performPulse_eq hcell hphase rfl, setPosition_pulse, val_succ_of_ne_last hlast]
        omega
    · rw [runPulses_stop ph cell _ s hgate, runPulses_stop ph cell _ s hgate]

/-- What is left of a phase is one pulse and what is left after it. -/
theorem runPhase_perform {ph : Phase} {s : State} (hphase : s.phase = ph) (hcan : s.canPulse = true) :
    runPulses ph cell 8 s = runPulses ph cell 8 (performPulse cell s) := by
  rw [runPulses_perform ph cell 7 s hphase hcan]
  by_cases hlast : s.pulse = 7
  · rw [runPulses_after_last hcell _ hphase hlast, runPulses_after_last hcell _ hphase hlast]
  · refine (runPulses_fuel hcell ph 7 _ ?_).symm
    rw [performPulse_eq hcell hphase rfl, setPosition_pulse, val_succ_of_ne_last hlast]
    omega

end Phases

/-- The pulses of a phase from `p` on. -/
def pulsesFrom (p : Fin 8) : List (Fin 8) := [0, 1, 2, 3, 4, 5, 6, 7].drop p.val

/-- The transfers of the pulses `ps`, one after another, with the sequencer left where it stands. -/
def applyCells (cell : Fin 8 → State → State) (ps : List (Fin 8)) (s : State) : State :=
  ps.foldl (fun t p => cell p t) s

theorem pulsesFrom_eq_cons : ∀ p : Fin 8, p ≠ 7 → pulsesFrom p = p :: pulsesFrom (p + 1) := by decide

theorem applyCells_cons (cell : Fin 8 → State → State) (p : Fin 8) (ps : List (Fin 8)) (s : State) :
    applyCells cell (p :: ps) s = applyCells cell ps (cell p s) := rfl

theorem applyCells_setPosition {cell : Fin 8 → State → State} (hcell : IgnoresPosition cell) (ps : List (Fin 8))
    (s : State) (ph : Phase) (q : Fin 8) :
    applyCells cell ps (s.setPosition ph q) = (applyCells cell ps s).setPosition ph q := by
  induction ps generalizing s with
  | nil => rfl
  | cons p ps ih => rw [applyCells_cons, applyCells_cons, hcell, ih]

/-- A whole phase, where no cell before its last stops the engine: the cells from the current pulse on, and then pulse 0 of
the other phase. -/
theorem runPhase_eq_applyCells {ph : Phase} {cell : Fin 8 → State → State} (hcell : IgnoresPosition cell) {s : State}
    (hphase : s.phase = ph) (hcan : s.canPulse = true)
    (hgate : ∀ q t, s.pulse ≤ q → q ≠ 7 → (cell q t).canPulse = t.canPulse) :
    runPulses ph cell 8 s = (applyCells cell (pulsesFrom s.pulse) s).setPosition ph.flip 0 := by
  induction hn : 7 - s.pulse.val generalizing s with
  | zero =>
    have hlast : s.pulse = 7 := by
      have := s.pulse.isLt
      exact Fin.ext (show s.pulse.val = 7 by omega)
    rw [runPhase_perform hcell hphase hcan, runPulses_after_last hcell 8 hphase hlast,
      performPulse_eq hcell hphase hlast, hlast]
    rfl
  | succ n ih =>
    have hne : s.pulse ≠ 7 := fun h => by simp [h] at hn
    rw [runPhase_perform hcell hphase hcan, performPulse_eq hcell hphase rfl, if_neg hne, ih, setPosition_pulse,
      pulsesFrom_eq_cons s.pulse hne, applyCells_cons, applyCells_setPosition hcell, setPosition_setPosition]
    · rfl
    · rw [setPosition_canPulse, hgate s.pulse s le_rfl hne, hcan]
    · intro q t hq
      rw [setPosition_pulse, Fin.le_def, val_succ_of_ne_last hne] at hq
      exact hgate q t (Fin.le_def.mpr (by omega))
    · rw [setPosition_pulse, val_succ_of_ne_last hne]
      omega

/-! ## The Fetch phase (R63, R64) -/

theorem fetchCell_canPulse (p : Fin 8) (s : State) : (fetchCell p s).canPulse = s.canPulse := by
  fin_cases p <;> rfl

/-- Settles O9: the fetch table's cells from the current pulse on. -/
theorem fetchFromEachPulse : Obligations.FetchFromEachPulse := by
  intro s hpower hhalted hio hphase
  rw [fetchPhase, Config.pulsesPerPhase, runPhase_eq_applyCells fetchCell_ignoresPosition hphase
    ((canPulse_iff s).mpr ⟨hpower, hhalted, hio⟩) fun q t _ _ => fetchCell_canPulse q t]
  generalize s.pulse = p
  fin_cases p <;> rfl

/-- What every cell of the fetch table and the advance keep, the Fetch phase keeps. -/
theorem fetchPhase_keeps {α : Type} (f : State → α) (hadv : ∀ s, f s.advance = f s)
    (hcell : ∀ p s, f (fetchCell p s) = f s) (s : State) : f (fetchPhase s) = f s :=
  runPulses_induct (P := fun u => f u = f s) .fetch fetchCell
    (fun u _ _ hu => (hadv _).trans ((hcell u.pulse u).trans hu)) _ s rfl

theorem fetchCell_readReg (p : Fin 8) (s : State) {r : Reg} (hr : r ∉ [.mar, .mbr, .ir, .pc]) :
    (fetchCell p s).readReg r = s.readReg r := by
  obtain ⟨ha, hz, hsr, hdsl, hdil, hdol, _⟩ := fetchCell_keeps p s
  cases r with
  | a => exact ha
  | z => exact hz
  | sr => exact hsr
  | dsl => exact hdsl
  | dil => exact hdil
  | dol => exact hdol
  | pc | mar | mbr | ir => simp at hr

theorem fetchPhase_ram (s : State) : (fetchPhase s).ram = s.ram :=
  fetchPhase_keeps State.ram advance_ram (fun p u => by fin_cases p <;> rfl) s

/-- Settles O10: the frame of the fetch table's cells, carried along the loop of the phase. -/
theorem fetchFrame : Obligations.FetchFrame := by
  refine fun s => ⟨fun r hr => fetchPhase_keeps (State.readReg · r) (fun u => advance_readReg u r)
      (fun p u => fetchCell_readReg p u hr) s, fun x => by rw [fetchPhase_ram],
    ⟨fetchPhase_keeps State.io advance_io ?_ s, fetchPhase_keeps State.ready advance_ready ?_ s⟩,
    fetchPhase_keeps State.halted advance_halted ?_ s, fetchPhase_keeps State.power advance_power ?_ s,
    fetchPhase_keeps State.bp advance_bp ?_ s,
    fetchPhase_keeps (fun u => u.bpskip.addr) (fun u => congrArg Bypass.addr (advance_bpskip u)) ?_ s,
    fetchPhase_keeps State.hostQueue advance_hostQueue ?_ s⟩
  all_goals exact fun p u => by fin_cases p <;> rfl

/-! ## Where an instruction stops the engine (R67, R69) -/

/-- The pulse of the Execute phase after which the engine performs no other: of HLT the last, of INP and OUT the one that
enters the transfer (D8, D11, D12). -/
def stopPulse : Instr → Option (Fin 8)
  | .hlt _ => some 7
  | .inp _ => some 0
  | .out _ => some 1
  | _ => none

/-- A cell that is not the row's stop keeps the gates open or closed as they are. -/
theorem executeCell_canPulse {i : Instr} {p : Fin 8} (hstop : stopPulse i ≠ some p) (s : State) :
    (executeCell i p s).canPulse = s.canPulse := by
  have heffect := executeCell_effect i p s
  generalize executeCell i p s = t at heffect ⊢
  cases heffect with
  | write i p s r v => simp [State.canPulse]
  | halt | awaitIn | awaitOut => exact absurd rfl hstop
  | idle | sum | storeA | storePc => rfl

/-- The row's stop closes the gates. -/
theorem executeCell_stop_canPulse {i : Instr} {p : Fin 8} (hstop : stopPulse i = some p) (s : State) :
    (executeCell i p s).canPulse = false := by
  cases i with
  | hlt a => cases hstop; simp [executeCell, hltCell, State.canPulse]
  | inp a => cases hstop; simp [executeCell, inpCell, State.canPulse]
  | out a => cases hstop; simp [executeCell, outCell, State.canPulse]
  | _ => cases hstop

theorem State.Executing.canPulse {s : State} (hs : s.Executing) : s.canPulse = true := by
  obtain ⟨hpower, hhalted, hio, _⟩ := hs
  exact (canPulse_iff s).mpr ⟨hpower, hhalted, hio⟩

theorem State.Executing.phase {s : State} (hs : s.Executing) : s.phase = .execute := by
  obtain ⟨_, _, _, hphase⟩ := hs
  exact hphase

/-- The meaning of an instruction that no pulse before E7 stops: its cells from the current pulse on (R67). -/
theorem exec_eq_applyCells {i : Instr} {s : State} (hs : s.Executing)
    (hstop : ∀ q, s.pulse ≤ q → q ≠ 7 → stopPulse i ≠ some q) :
    exec i s = .next (applyCells (executeCell i) (pulsesFrom s.pulse) s).toBoundary := by
  rw [exec_eq, runExecute, Config.pulsesPerPhase, runPhase_eq_applyCells (executeCell_ignoresPosition i)
    hs.phase hs.canPulse fun q t hq hne => executeCell_canPulse (hstop q hq hne) t]
  rfl

/-- The meaning from a pulse on is that pulse and the meaning from the next one on. -/
theorem exec_perform {i : Instr} {s : State} (hs : s.Executing) :
    exec i s = exec i (performPulse (executeCell i) s) := by
  rw [exec_eq, exec_eq]
  exact congrArg _ (runPhase_perform (executeCell_ignoresPosition i) hs.phase hs.canPulse)

/-- The meaning from where the engine performs no pulse of the Execute phase is to stay there. -/
theorem exec_hold {i : Instr} {s : State} (hhold : ¬(s.phase = .execute ∧ s.canPulse = true)) :
    exec i s = .next s := by
  rw [exec_eq, runExecute, runPulses_stop _ _ _ _ hhold]

/-- From the row's stop the meaning is that one pulse. -/
theorem exec_of_stop {i : Instr} {s : State} (hs : s.Executing) (hstop : stopPulse i = some s.pulse) :
    exec i s = .next (performPulse (executeCell i) s) := by
  rw [exec_perform hs]
  refine exec_hold fun ⟨_, hcan⟩ => ?_
  rw [performPulse_eq (executeCell_ignoresPosition i) rfl rfl, setPosition_canPulse,
    executeCell_stop_canPulse hstop] at hcan
  cases hcan

end Sys2Proof.Machine

namespace Sys2Proof.Machine

/-! ## The instructions that no pulse before E7 stops -/

theorem pulse_cases : ∀ p : Fin 8, p = 0 ∨ p = 1 ∨ p = 2 ∨ p = 3 ∨ p = 4 ∨ p = 5 ∨ p = 6 ∨ p = 7 := by decide

theorem applyCells_idle {cell : Fin 8 → State → State} {ps : List (Fin 8)} (hidle : ∀ p ∈ ps, ∀ t, cell p t = t)
    (s : State) : applyCells cell ps s = s := by
  induction ps generalizing s with
  | nil => rfl
  | cons p ps ih =>
    rw [applyCells_cons, hidle p List.mem_cons_self]
    exact ih (fun q hq => hidle q (List.mem_cons_of_mem p hq)) s

theorem le_of_mem_pulsesFrom : ∀ p q : Fin 8, q ∈ pulsesFrom p → p ≤ q := by decide

/-- E0 to E2 of an instruction that stores `v`: MAR takes the field, MBR and the word at the field take `v` (R67). -/
theorem applyCells_store {i : Instr} (a : Addr) {s : State} (v : Word) (he0 : executeCell i 0 s = s.latchAddress a)
    (he1 : executeCell i 1 (s.latchAddress a) = (s.latchAddress a).writeReg .mbr v)
    (he2 : executeCell i 2 ((s.latchAddress a).writeReg .mbr v) = ((s.latchAddress a).writeReg .mbr v).writeMemory) :
    applyCells (executeCell i) (pulsesFrom 0) s =
      applyCells (executeCell i) (pulsesFrom 3)
        (((s.latchAddress a).writeReg .mbr v).setRam (Memory.write s.ram a v)) := by
  have hwrite : ((s.latchAddress a).writeReg .mbr v).writeMemory =
      ((s.latchAddress a).writeReg .mbr v).setRam (Memory.write s.ram a v) := by
    simp [State.writeMemory, State.latchAddress]
  rw [← hwrite, ← he2, ← he1, ← he0]
  rfl

/-- Settles O22: of the row of HLT only E7 does anything. -/
theorem hltHalts : Obligations.HltHalts := by
  refine ⟨fun _ => decodeWord_of_masked, fun a s hs => ?_⟩
  rw [exec_eq_applyCells hs fun q _ hne => by simpa [stopPulse] using Ne.symm hne]
  generalize s.pulse = p
  fin_cases p <;> rfl

/-- The meaning of an instruction whose row is idle from the current pulse on is to reach the boundary. -/
theorem exec_idle {i : Instr} {s : State} (hs : s.Executing) (hstop : stopPulse i = none)
    (hidle : ∀ q t, s.pulse ≤ q → executeCell i q t = t) : exec i s = .next s.toBoundary := by
  rw [exec_eq_applyCells hs (by simp [hstop]), applyCells_idle fun q hq t => hidle q t (le_of_mem_pulsesFrom _ q hq)]

/-- The meaning of an instruction of whose row only E0 does anything. -/
theorem exec_e0_row {i : Instr} {s : State} (hs : s.Executing) (hstop : stopPulse i = none)
    (hidle : ∀ (p : Fin 7) t, executeCell i p.succ t = t) :
    exec i s = .next (if s.pulse = 0 then (executeCell i 0 s).toBoundary else s.toBoundary) := by
  have hrest (q : Fin 8) (t : State) (hq : q ≠ 0) : executeCell i q t = t := by
    obtain ⟨p, rfl⟩ := Fin.exists_succ_eq.mpr hq
    exact hidle p t
  by_cases hzero : s.pulse = 0
  · rw [exec_eq_applyCells hs (by simp [hstop]), hzero, if_pos rfl, pulsesFrom_eq_cons 0 (by decide), applyCells_cons,
      applyCells_idle fun q hq t => hrest q t fun h => by
        subst h; exact absurd (le_of_mem_pulsesFrom _ _ hq) (by decide)]
  · rw [if_neg hzero]
    exact exec_idle hs hstop fun q t hq => hrest q t fun h => hzero (Fin.le_zero_iff.mp (h ▸ hq))

/-- The meaning of an instruction that reads memory and then works at E2 and E3 (R67). -/
theorem exec_load_row {i : Instr} (a : Addr) {s : State} (hs : s.Executing) (hstop : stopPulse i = none)
    (he0 : ∀ t, executeCell i 0 t = t.latchAddress a) (he1 : ∀ t, executeCell i 1 t = t.readMemory)
    (hidle : ∀ (p : Fin 4) t, executeCell i (p.natAdd 4) t = t) :
    exec i s = .next (
      if s.pulse = 0 then
        (applyCells (executeCell i) [2, 3] ((s.latchAddress a).writeReg .mbr (Memory.read s.ram a))).toBoundary
      else if s.pulse = 1 then (applyCells (executeCell i) [2, 3] s.readMemory).toBoundary
      else if s.pulse = 2 then (applyCells (executeCell i) [2, 3] s).toBoundary
      else if s.pulse = 3 then (executeCell i 3 s).toBoundary
      else s.toBoundary) := by
  have hread : (s.latchAddress a).readMemory = (s.latchAddress a).writeReg .mbr (Memory.read s.ram a) := by
    simp [State.readMemory, State.latchAddress]
  have he4 (t : State) : executeCell i 4 t = t := hidle 0 t
  have he5 (t : State) : executeCell i 5 t = t := hidle 1 t
  have he6 (t : State) : executeCell i 6 t = t := hidle 2 t
  have he7 (t : State) : executeCell i 7 t = t := hidle 3 t
  rw [exec_eq_applyCells hs (by simp [hstop])]
  generalize s.pulse = p
  obtain rfl | rfl | rfl | rfl | rfl | rfl | rfl | rfl := pulse_cases p
  all_goals simp [applyCells, pulsesFrom, he0, he1, he4, he5, he6, he7, hread]

/-- Settles O23: the row of ADD. -/
theorem addSumsIntoA : Obligations.AddSumsIntoA :=
  ⟨fun _ => decodeWord_of_masked, fun a _ hs =>
    exec_load_row a hs rfl (fun _ => rfl) (fun _ => rfl) fun p _ => by fin_cases p <;> rfl⟩

/-- Settles O24: the row of XOR. -/
theorem xorIntoA : Obligations.XorIntoA :=
  ⟨fun _ => decodeWord_of_masked, fun a _ hs =>
    exec_load_row a hs rfl (fun _ => rfl) (fun _ => rfl) fun p _ => by fin_cases p <;> rfl⟩

/-- Settles O25: the row of AND. -/
theorem andIntoA : Obligations.AndIntoA :=
  ⟨fun _ => decodeWord_of_masked, fun a _ hs =>
    exec_load_row a hs rfl (fun _ => rfl) (fun _ => rfl) fun p _ => by fin_cases p <;> rfl⟩

/-- Settles O26: the row of IOR. -/
theorem iorIntoA : Obligations.IorIntoA :=
  ⟨fun _ => decodeWord_of_masked, fun a _ hs =>
    exec_load_row a hs rfl (fun _ => rfl) (fun _ => rfl) fun p _ => by fin_cases p <;> rfl⟩

/-- Settles O30: the row of LDA, idle at E3 too. -/
theorem ldaLoadsA : Obligations.LdaLoadsA := by
  refine ⟨fun _ => decodeWord_of_masked, fun a s hs => ?_⟩
  rw [exec_load_row a hs rfl (fun _ => rfl) (fun _ => rfl) fun p _ => by fin_cases p <;> rfl,
    show (executeCell (.lda a) 3 s) = s from rfl, ite_self]
  rfl

/-- Settles O31: the row of STA from each pulse. -/
theorem staStoresA : Obligations.StaStoresA := by
  refine ⟨fun _ => decodeWord_of_masked, fun a s hs => ?_⟩
  rw [exec_eq_applyCells hs (by simp [stopPulse])]
  generalize s.pulse = p
  obtain rfl | rfl | rfl | rfl | rfl | rfl | rfl | rfl := pulse_cases p
  · rw [applyCells_store a s.a rfl rfl rfl]; rfl
  all_goals rfl

/-- SRJ's target as a number: the word after the slot, modulo the memory size (R103). -/
theorem subroutineEntry_eq (a : Addr) : subroutineEntry a = BitVec.ofNat 16 ((a.toNat + 1) % 4096) := by
  refine BitVec.eq_of_toNat_eq ?_
  simp [subroutineEntry, zext16]

/-- Settles O32: the row of SRJ from each pulse. -/
theorem srjSavesAndJumps : Obligations.SrjSavesAndJumps := by
  refine ⟨fun _ => decodeWord_of_masked, fun a s hs => ?_⟩
  rw [exec_eq_applyCells hs (by simp [stopPulse]), ← subroutineEntry_eq]
  generalize s.pulse = p
  obtain rfl | rfl | rfl | rfl | rfl | rfl | rfl | rfl := pulse_cases p
  · rw [applyCells_store a s.pc rfl rfl rfl]; rfl
  all_goals rfl

/-- Settles O27: of the row of NOT only E0 does anything. -/
theorem notComplementsA : Obligations.NotComplementsA :=
  ⟨fun _ => decodeWord_of_masked, fun _ _ hs => exec_e0_row hs rfl fun p _ => by fin_cases p <;> rfl⟩

/-- Settles O28: of the row of RAL only E0 does anything, and its rotation is the library's. -/
theorem ralRotatesA : Obligations.RalRotatesA := by
  refine ⟨fun _ => decodeWord_of_masked, fun a s hs => ?_⟩
  rw [← aluRotl1_eq_rotateLeft]
  exact exec_e0_row hs rfl fun p _ => by fin_cases p <;> rfl

/-- Settles O29: of the row of CSA only E0 does anything. -/
theorem csaCopiesSwitches : Obligations.CsaCopiesSwitches :=
  ⟨fun _ => decodeWord_of_masked, fun _ _ hs => exec_e0_row hs rfl fun p _ => by fin_cases p <;> rfl⟩

/-- Settles O34: of the row of JMP only E0 does anything. -/
theorem jmpJumps : Obligations.JmpJumps :=
  ⟨fun _ => decodeWord_of_masked, fun _ _ hs => exec_e0_row hs rfl fun p _ => by fin_cases p <;> rfl⟩

/-- Settles O37: the row of NOP is idle. -/
theorem nopDoesNothing : Obligations.NopDoesNothing :=
  ⟨fun _ => decodeWord_of_masked, fun _ _ hs => exec_idle hs rfl fun _ _ _ => rfl⟩

theorem isNegative_eq_getLsbD (w : Word) : isNegative w = w.getLsbD 15 := BitVec.msb_eq_getLsbD_last w

/-- Settles O33: of the row of JMA only E0 does anything, and only if the sign is set. -/
theorem jmaBranchesOnSign : Obligations.JmaBranchesOnSign := by
  refine ⟨fun _ => decodeWord_of_masked, fun a s hs => ?_⟩
  have he0 : executeCell (.jma a) 0 s = if isNegative s.a = true then s.writeReg .pc (zext16 a) else s := rfl
  rw [exec_e0_row hs rfl fun p _ => by fin_cases p <;> rfl, he0, ← isNegative_eq_getLsbD]
  by_cases hzero : s.pulse = 0 <;> by_cases hneg : isNegative s.a = true <;> simp only [hzero, hneg] <;> rfl

/-! ## INP, OUT and their completions (spec/44_io.md) -/

theorem inputLatch_eq (b : Byte) : inputLatch b = BitVec.ofNat 16 b.toNat :=
  BitVec.eq_of_toNat_eq (by simp [inputLatch])

theorem outputByte_eq (w : Word) : outputByte w = BitVec.ofNat 16 (w.toNat / 256) := by
  have hw := w.isLt
  refine BitVec.eq_of_toNat_eq ?_
  rw [outputByte, upperByte, BitVec.toNat_setWidth, BitVec.extractLsb'_toNat, Nat.shiftRight_eq_div_pow,
    BitVec.toNat_ofNat]
  omega

theorem withUpperByte_eq (b : Byte) (w : Word) :
    withUpperByte b w = BitVec.ofNat 16 (b.toNat * 256 + w.toNat % 256) := by
  have hb := b.isLt
  refine BitVec.eq_of_toNat_eq ?_
  rw [withUpperByte, lowerByte, BitVec.toNat_append, BitVec.extractLsb'_toNat, Nat.shiftRight_zero,
    ← Nat.shiftLeft_add_eq_or_of_lt (Nat.mod_lt _ (by decide)), Nat.shiftLeft_eq, BitVec.toNat_ofNat]
  omega

/-- `CompleteInput` whole (R112). -/
theorem command_completeInput (b : Byte) (s : State) :
    command (.completeInput b) s =
      if s.power = true ∧ s.io = .awaitIn then
        ({ s with
            dil := BitVec.ofNat 16 b.toNat, a := BitVec.ofNat 16 (b.toNat * 256 + s.a.toNat % 256), ready := true,
            io := .idle }, .accepted)
      else (s, .ignored) := by
  have hpending : s.inputPending = true ↔ s.power = true ∧ s.io = .awaitIn := by simp [State.inputPending]
  rw [← inputLatch_eq, ← withUpperByte_eq, command, completeInput]
  simp only [hpending]
  rfl

/-- `CompleteOutput` whole (R113). -/
theorem command_completeOutput (s : State) :
    command .completeOutput s =
      if s.power = true ∧ s.io = .awaitOut then ({ s with ready := true, io := .idle }, .accepted)
      else (s, .ignored) := by
  have hpending : s.outputPending = true ↔ s.power = true ∧ s.io = .awaitOut := by simp [State.outputPending]
  rw [command, completeOutput]
  simp only [hpending]
  rfl

/-- INP up to the hold from E0, to the boundary from every later pulse (R110). -/
theorem exec_inp (a : Addr) {s : State} (hs : s.Executing) :
    exec (.inp a) s = .next (
      if s.pulse = 0 then { s.setPosition .execute 1 with dsl := zext16 a, io := .awaitIn, ready := false }
      else s.toBoundary) := by
  by_cases hzero : s.pulse = 0
  · rw [exec_of_stop hs (by simp [stopPulse, hzero]),
      performPulse_eq (executeCell_ignoresPosition _) hs.phase hzero, if_pos hzero]
    rfl
  · have hstop (q : Fin 8) (hq : s.pulse ≤ q) (_ : q ≠ 7) : stopPulse (.inp a) ≠ some q := by
      intro h
      obtain rfl : (0 : Fin 8) = q := Option.some.inj h
      exact hzero (Fin.le_zero_iff.mp hq)
    rw [exec_eq_applyCells hs hstop, if_neg hzero]
    generalize s.pulse = p at hzero
    obtain rfl | rfl | rfl | rfl | rfl | rfl | rfl | rfl := pulse_cases p
    · exact absurd rfl hzero
    all_goals rfl

/-- Settles O35: the hold at E1; the completion puts the engine back in the middle of the phase, whose rest is idle. -/
theorem inpInputsUpperByte : Obligations.InpInputsUpperByte := by
  refine ⟨fun _ => decodeWord_of_masked, fun a s hs => exec_inp a hs, fun a s b hs hzero => ?_⟩
  have ⟨hpower, hhalted, hio, hphase⟩ := hs
  refine ⟨_, _, (exec_inp a hs).trans (congrArg _ (if_pos hzero)),
    (command_completeInput b _).trans (if_pos ⟨hpower, rfl⟩), ?_⟩
  refine (exec_inp a ?_).trans ?_
  · exact ⟨hpower, hhalted, rfl, rfl⟩
  · rw [← hio]
    rfl

/-- OUT up to the hold from E0 and E1, to the boundary from every later pulse (R111). -/
theorem exec_out (a : Addr) {s : State} (hs : s.Executing) :
    exec (.out a) s = .next (
      if s.pulse = 0 then
        { s.setPosition .execute 2 with
          dsl := zext16 a, dol := BitVec.ofNat 16 (s.a.toNat / 256), io := .awaitOut, ready := false }
      else if s.pulse = 1 then
        { s.setPosition .execute 2 with dol := BitVec.ofNat 16 (s.a.toNat / 256), io := .awaitOut, ready := false }
      else s.toBoundary) := by
  have hfromE1 {t : State} (ht : t.Executing) (hone : t.pulse = 1) :
      exec (.out a) t = .next
        { t.setPosition .execute 2 with dol := outputByte t.a, io := .awaitOut, ready := false } := by
    rw [exec_of_stop ht (by simp [stopPulse, hone]),
      performPulse_eq (executeCell_ignoresPosition _) ht.phase hone]
    rfl
  rw [← outputByte_eq]
  have ⟨hpower, hhalted, hio, hphase⟩ := hs
  by_cases hzero : s.pulse = 0
  · rw [exec_perform hs, performPulse_eq (executeCell_ignoresPosition _) hphase hzero, if_pos hzero]
    exact hfromE1 ⟨hpower, hhalted, hio, rfl⟩ rfl
  by_cases hone : s.pulse = 1
  · rw [hfromE1 hs hone, if_neg hzero, if_pos hone]
  · have hstop (q : Fin 8) (hq : s.pulse ≤ q) (_ : q ≠ 7) : stopPulse (.out a) ≠ some q := by
      intro h
      obtain rfl : (1 : Fin 8) = q := Option.some.inj h
      generalize s.pulse = p at hzero hone hq
      revert p
      decide
    rw [exec_eq_applyCells hs hstop, if_neg hzero, if_neg hone]
    generalize s.pulse = p at hzero hone
    obtain rfl | rfl | rfl | rfl | rfl | rfl | rfl | rfl := pulse_cases p
    · exact absurd rfl hzero
    · exact absurd rfl hone
    all_goals rfl

/-- Settles O36: the hold at E2; the completion puts the engine back in the middle of the phase, whose rest is idle. -/
theorem outOutputsUpperByte : Obligations.OutOutputsUpperByte := by
  refine ⟨fun _ => decodeWord_of_masked, fun a s hs => exec_out a hs, fun a s hs hzero => ?_⟩
  have ⟨hpower, hhalted, hio, hphase⟩ := hs
  refine ⟨_, _, (exec_out a hs).trans (congrArg _ (if_pos hzero)),
    (command_completeOutput _).trans (if_pos ⟨hpower, rfl⟩), ?_⟩
  refine (exec_out a ?_).trans ?_
  · exact ⟨hpower, hhalted, rfl, rfl⟩
  · rw [← hio]
    rfl

end Sys2Proof.Machine

namespace Sys2Proof.Machine

/-! ## The one word that STA and SRJ store (R100, R103) -/

theorem State.Executing.of_gate {s : State} (hphase : s.phase = .execute) (hcan : s.canPulse = true) : s.Executing := by
  obtain ⟨hpower, hhalted, hio⟩ := (canPulse_iff s).mp hcan
  exact ⟨hpower, hhalted, hio, hphase⟩

theorem exec_of_not_executing {i : Instr} {s : State} (hs : ¬s.Executing) : exec i s = .next s :=
  exec_hold fun ⟨hphase, hcan⟩ => hs (.of_gate hphase hcan)

/-- The address that the store at E2 uses: the field if E0 is still to come, else what MAR holds. -/
def storeAddress (a : Addr) (s : State) : Addr := if s.pulse = 0 then a else addressField s.mar

/-- The word that the store at E2 uses: the one that E1 latches, unless E1 is past. -/
def storeWord (v : Word) (s : State) : Word := if s.pulse = 2 then s.mbr else v

theorem exec_sta_ram (a : Addr) {s t : State} (hs : s.Executing) (h : exec (.sta a) s = .next t) :
    t.ram = if s.pulse.val ≤ 2 then Memory.write s.ram (storeAddress a s) (storeWord s.a s) else s.ram := by
  rw [staStoresA.2 a s hs] at h
  cases h
  unfold storeAddress storeWord
  generalize s.pulse = p
  obtain rfl | rfl | rfl | rfl | rfl | rfl | rfl | rfl := pulse_cases p <;> rfl

theorem exec_srj_ram (a : Addr) {s t : State} (hs : s.Executing) (h : exec (.srj a) s = .next t) :
    t.ram = if s.pulse.val ≤ 2 then Memory.write s.ram (storeAddress a s) (storeWord s.pc s) else s.ram := by
  rw [srjSavesAndJumps.2 a s hs] at h
  cases h
  unfold storeAddress storeWord
  generalize s.pulse = p
  obtain rfl | rfl | rfl | rfl | rfl | rfl | rfl | rfl := pulse_cases p <;> rfl

/-- What such a store does to memory: one word at most, and none from E3 on or where the engine is held. -/
theorem store_memory {s t : State} {x : Addr} {v : Word}
    (hrun : s.Executing → t.ram = if s.pulse.val ≤ 2 then Memory.write s.ram x v else s.ram)
    (hhold : ¬s.Executing → t = s) :
    (∀ y, y ≠ x → Memory.read t.ram y = Memory.read s.ram y) ∧
    (s.Executing → Memory.wf s.ram = true → s.pulse.val ≤ 2 → Memory.read t.ram x = v) ∧
    (2 < s.pulse.val → MemoryKept s t) := by
  refine ⟨fun y hy => ?_, fun hs hwf hle => ?_, fun hlt y => ?_⟩
  · by_cases hs : s.Executing
    · rw [hrun hs]
      split
      · exact read_write_ne s.ram x y v hy
      · rfl
    · rw [hhold hs]
  · rw [hrun hs, if_pos hle]
    exact read_write_same s.ram x v hwf
  · by_cases hs : s.Executing
    · rw [hrun hs, if_neg (by omega)]
    · rw [hhold hs]

/-- Settles O41: the rows of STA and SRJ write the store's word and no other, and their own registers. -/
theorem storeFrame : Obligations.StoreFrame := by
  intro a i s t hi h
  simp only [List.mem_cons, List.not_mem_nil, or_false] at hi
  have hhold (hs : ¬s.Executing) : t = s := by
    rw [exec_of_not_executing hs] at h
    cases h
    rfl
  have hregs : RegsKeptBut (writtenRegs i) s t := fun r => exec_readReg h
  obtain rfl | rfl := hi
  · obtain ⟨hother, hsame, hlate⟩ := store_memory (fun hs => exec_sta_ram a hs h) hhold
    exact ⟨by simpa [writtenRegs] using hregs, hother, by simpa [storeAddress, storeWord] using hsame, hlate,
      exec_handshakeKept h (by simp) (by simp), exec_debugKept h, exec_halted h (by simp), exec_ovf h (by simp)⟩
  · obtain ⟨hother, hsame, hlate⟩ := store_memory (fun hs => exec_srj_ram a hs h) hhold
    exact ⟨by simpa [writtenRegs] using hregs, hother, by simpa [storeAddress, storeWord] using hsame, hlate,
      exec_handshakeKept h (by simp) (by simp), exec_debugKept h, exec_halted h (by simp), exec_ovf h (by simp)⟩

end Sys2Proof.Machine

namespace Sys2Proof.Machine

/-! ## When a `StepPulse` performs a pulse (R69, R70) -/

/-- The next `StepPulse` performs a pulse. -/
abbrev State.Performs (s : State) : Prop := s.canPulse = true ∧ s.breakpointFires = false

/-- Of the held states, with power on, the status is not `Continuing` (R69, R76). -/
theorem statusOf_eq_continuing_iff (s : State) : statusOf s = .continuing ↔ s.halted = false ∧ s.io = .idle := by
  cases hhalted : s.halted <;> cases hio : s.io <;> simp [statusOf, hhalted, hio]

theorem statusOf_of_canPulse {s : State} (hcan : s.canPulse = true) : statusOf s = .continuing :=
  (statusOf_eq_continuing_iff s).mpr ((canPulse_iff s).mp hcan).2

theorem statusOf_of_not_canPulse {s : State} (hpower : s.power = true) (hcan : s.canPulse = false) :
    statusOf s ≠ .continuing := by
  rw [Ne, statusOf_eq_continuing_iff]
  intro hidle
  rw [(canPulse_iff s).mpr ⟨hpower, hidle⟩] at hcan
  cases hcan

theorem stepPulse_of_performs {s : State} (hs : s.Performs) :
    stepPulse s = { state := performPulse currentCell s, status := statusOf (performPulse currentCell s),
                    overflow := overflowReport s } :=
  stepPulse_perform s hs.1 hs.2

/-- A `StepPulse` that performs no pulse says so, and reports no overflow (R76). -/
theorem stepPulse_of_not_performs {s : State} (hs : ¬s.Performs) :
    (stepPulse s).status ≠ .continuing ∧ (stepPulse s).overflow = false := by
  by_cases hstop : s.power = false ∨ s.halted = true
  · rw [stepPulse_halted s hstop]
    exact ⟨Status.noConfusion, rfl⟩
  simp only [not_or, Bool.not_eq_false, Bool.not_eq_true] at hstop
  obtain ⟨hpower, hhalted⟩ := hstop
  cases hfires : s.breakpointFires with
  | true =>
    rw [stepPulse_breakpoint s hpower hhalted hfires]
    exact ⟨nofun, rfl⟩
  | false =>
    have hpending : s.io ≠ .idle := fun hio => hs ⟨(canPulse_iff s).mpr ⟨hpower, hhalted, hio⟩, hfires⟩
    rw [stepPulse_pending hpower hhalted hfires hpending]
    exact ⟨statusOf_ne_continuing hpending, rfl⟩

theorem performs_of_continuing {s : State} (hstatus : (stepPulse s).status = .continuing) : s.Performs :=
  by_contra fun hs => (stepPulse_of_not_performs hs).1 hstatus

/-- No breakpoint fires in the middle of a cycle (R128). -/
theorem performs_of_not_boundary {s : State} (hcan : s.canPulse = true) (hmid : s.atBoundary = false) : s.Performs := by
  refine ⟨hcan, Bool.eq_false_iff.mpr fun hfires => ?_⟩
  rw [breakpointFires_atBoundary s hfires] at hmid
  cases hmid

theorem atBoundary_eq_false_of_execute {s : State} (hphase : s.phase = .execute) : s.atBoundary = false := by
  simp [State.atBoundary, hphase]

theorem atBoundary_eq_false_of_pulse {s : State} (hpulse : s.pulse ≠ 0) : s.atBoundary = false := by
  simp [State.atBoundary, hpulse]

theorem State.Executing.performs {s : State} (hs : s.Executing) : s.Performs :=
  performs_of_not_boundary hs.canPulse (atBoundary_eq_false_of_execute hs.phase)

theorem State.ReadyToFetch.performs {s : State} (hs : s.ReadyToFetch) : s.Performs := by
  obtain ⟨hpower, hhalted, hio, _, _, hfires⟩ := hs
  exact ⟨(canPulse_iff s).mpr ⟨hpower, hhalted, hio⟩, hfires⟩

theorem State.ReadyToFetch.phase {s : State} (hs : s.ReadyToFetch) : s.phase = .fetch := by
  obtain ⟨_, _, _, hphase, _⟩ := hs
  exact hphase

/-! ## The cycle's clock, and the loop of `RunCycle` without its bound (R77, R142) -/

/-- The place in the cycle of sixteen pulses: 0 to 7 in Fetch, 8 to 15 in Execute. -/
def clock (s : State) : Nat :=
  match s.phase with
  | .fetch => s.pulse.val
  | .execute => 8 + s.pulse.val

theorem clock_of_fetch {s : State} (hphase : s.phase = .fetch) : clock s = s.pulse.val := by rw [clock, hphase]

theorem clock_of_execute {s : State} (hphase : s.phase = .execute) : clock s = 8 + s.pulse.val := by
  rw [clock, hphase]

theorem clock_lt (s : State) : clock s < 16 := by
  have := s.pulse.isLt
  unfold clock
  split <;> omega

theorem atBoundary_iff_clock (s : State) : s.atBoundary = true ↔ clock s = 0 := by
  rw [atBoundary_iff]
  cases hphase : s.phase with
  | fetch => simp only [clock_of_fetch hphase, Fin.ext_iff, true_and, Fin.val_zero]
  | execute => simp only [clock_of_execute hphase, reduceCtorEq, false_and, false_iff]; omega

/-- A performed pulse is one tick of the clock (R60). -/
theorem clock_performPulse (s : State) :
    clock (performPulse currentCell s) = if clock s = 15 then 0 else clock s + 1 := by
  have hpulse : (performPulse currentCell s).pulse = s.pulse + 1 := performPulse_currentCell_pulse s
  have hnext : (performPulse currentCell s).phase = if s.pulse = 7 then s.phase.flip else s.phase :=
    performPulse_currentCell_phase s
  by_cases hlast : s.pulse = 7
  · rw [if_pos hlast] at hnext
    cases hphase : s.phase <;> simp [clock, hnext, hpulse, hphase, hlast, Phase.flip]
  · have hval : s.pulse.val ≠ 7 := fun h => hlast (Fin.ext h)
    rw [if_neg hlast] at hnext
    cases hphase : s.phase with
    | fetch =>
      have := s.pulse.isLt
      rw [clock_of_fetch hphase, clock_of_fetch (hnext.trans hphase), hpulse, val_succ_of_ne_last hlast,
        if_neg (by omega)]
    | execute =>
      rw [clock_of_execute hphase, clock_of_execute (hnext.trans hphase), hpulse, val_succ_of_ne_last hlast,
        if_neg (by omega), Nat.add_assoc]

/-- A `StepPulse` after which `RunCycle` goes on has performed one tick, and not the last (R77). -/
theorem clock_stepPulse {s : State} (hgoes : ¬((stepPulse s).status ≠ .continuing ∨ (stepPulse s).state.atBoundary = true)) :
    clock (stepPulse s).state = clock s + 1 := by
  rw [not_or, not_not] at hgoes
  obtain ⟨hstatus, hmid⟩ := hgoes
  rw [atBoundary_iff_clock] at hmid
  rw [stepPulse_of_performs (performs_of_continuing hstatus)] at hmid ⊢
  rw [clock_performPulse] at hmid ⊢
  exact if_neg fun hlast => hmid (if_pos hlast)

/-- Turns of the loop of `RunCycle` beyond the end of the cycle do nothing. -/
theorem runCycleLoop_fuel (n : Nat) (seen : Bool) (s : State) (hn : 16 ≤ n + clock s) :
    runCycleLoop (n + 1) seen s = runCycleLoop n seen s := by
  induction n generalizing seen s with
  | zero => have := clock_lt s; omega
  | succ n ih =>
    rw [runCycleLoop_succ (n + 1) seen s, runCycleLoop_succ n seen s]
    split
    · rfl
    · next hgoes => exact ih _ _ (by rw [clock_stepPulse hgoes]; omega)

/-- The overflow seen so far is one of the bits that the loop joins (R76). -/
theorem runCycleLoop_seen (n : Nat) (seen : Bool) (s : State) :
    runCycleLoop n seen s = { runCycleLoop n false s with overflow := seen || (runCycleLoop n false s).overflow } := by
  induction n generalizing seen s with
  | zero => simp [runCycleLoop]
  | succ n ih =>
    rw [runCycleLoop_succ n seen, runCycleLoop_succ n false]
    split
    · rfl
    · rw [ih, ih (false || (stepPulse s).overflow)]
      simp [Bool.or_assoc]

/-- `RunCycle` ends with a pulse that stops the engine or reaches a boundary (R77). -/
theorem runCycle_of_last {s : State}
    (hlast : (stepPulse s).status ≠ .continuing ∨ (stepPulse s).state.atBoundary = true) : runCycle s = stepPulse s := by
  rw [runCycle, runCycleLoop_succ, if_pos hlast, Bool.false_or]

/-- After any other pulse `RunCycle` goes on as from the state that the pulse leaves (R77). -/
theorem runCycle_of_not_last {s : State}
    (hgoes : ¬((stepPulse s).status ≠ .continuing ∨ (stepPulse s).state.atBoundary = true)) :
    runCycle s = { runCycle (stepPulse s).state with
      overflow := (stepPulse s).overflow || (runCycle (stepPulse s).state).overflow } := by
  have hfuel : runCycleLoop 16 false (stepPulse s).state = runCycleLoop 15 false (stepPulse s).state :=
    runCycleLoop_fuel 15 false _ (by rw [clock_stepPulse hgoes]; omega)
  rw [runCycle, runCycleLoop_succ, if_neg hgoes, runCycleLoop_seen, runCycle, hfuel, Bool.false_or]

theorem runCycle_of_not_performs {s : State} (hs : ¬s.Performs) : runCycle s = stepPulse s :=
  runCycle_of_stop (stepPulse_of_not_performs hs).1

/-- A larger bound gives the same `RunCycle`. -/
theorem runCycleLoop_add (n : Nat) (s : State) : runCycleLoop (16 + n) false s = runCycle s := by
  induction n with
  | zero => rfl
  | succ n ih => rw [← ih, ← runCycleLoop_fuel (16 + n) false s (by omega)]; rfl

/-- A `RunProgram` that has stopped does not see a larger bound. -/
theorem runProgramLoop_add (n k : Nat) (s : State) (hstops : (runProgramLoop n s).2 ≠ .outOfFuel) :
    runProgramLoop (n + k) s = runProgramLoop n s := by
  induction n generalizing s with
  | zero => exact absurd rfl hstops
  | succ n ih =>
    rw [Nat.add_right_comm]
    simp only [runProgramLoop] at hstops ⊢
    split
    · next hstatus =>
      rw [if_pos hstatus] at hstops
      exact ih _ hstops
    · rfl

/-- Settles O14: a turn of the loop of `RunCycle` is a tick of the clock, and a run that stops within `n` cycles stops at the
same cycle under every larger bound. -/
theorem boundsCutNothingShort : Obligations.BoundsCutNothingShort := by
  refine ⟨runCycleLoop_add, fun n k words s hstops => ?_⟩
  unfold runProgram at hstops ⊢
  split
  · next hlength =>
    rw [if_pos hlength] at hstops
    exact runProgramLoop_add n k _ hstops
  · rfl

end Sys2Proof.Machine

namespace Sys2Proof.Machine

/-! ## A `RunCycle` in the Fetch phase -/

theorem performPulse_of_fetch {s : State} (hphase : s.phase = .fetch) :
    performPulse currentCell s = performPulse fetchCell s := by
  simp only [performPulse, currentCell, hphase]

theorem performPulse_of_execute {s : State} (hphase : s.phase = .execute) :
    performPulse currentCell s = performPulse (executeCell (decodeWord s.ir)) s := by
  simp only [performPulse, currentCell, hphase]

theorem advance_canPulse (s : State) : s.advance.canPulse = s.canPulse := rfl

theorem performPulse_fetchCell_canPulse (s : State) : (performPulse fetchCell s).canPulse = s.canPulse := by
  rw [performPulse, advance_canPulse, fetchCell_canPulse]

/-- No pulse of the Fetch phase reaches a boundary. -/
theorem performPulse_fetchCell_not_boundary {s : State} (hphase : s.phase = .fetch) :
    (performPulse fetchCell s).atBoundary = false := by
  rw [performPulse_eq fetchCell_ignoresPosition hphase rfl]
  by_cases hlast : s.pulse = 7
  · rw [if_pos hlast]
    exact atBoundary_eq_false_of_execute rfl
  · refine atBoundary_eq_false_of_pulse fun hzero => ?_
    have := congrArg Fin.val hzero
    rw [setPosition_pulse, val_succ_of_ne_last hlast] at this
    cases this

/-- A performed pulse of the Fetch phase stops nothing and reports no overflow. -/
theorem stepPulse_of_fetch {s : State} (hs : s.Performs) (hphase : s.phase = .fetch) :
    stepPulse s = { state := performPulse fetchCell s, status := .continuing, overflow := false } := by
  have hcan : (performPulse fetchCell s).canPulse = true := (performPulse_fetchCell_canPulse s).trans hs.1
  have hreport : overflowReport s = false := by simp [overflowReport, hphase]
  rw [stepPulse_of_performs hs, performPulse_of_fetch hphase, statusOf_of_canPulse hcan, hreport]

theorem runCycle_of_fetch_pulse {s : State} (hs : s.Performs) (hphase : s.phase = .fetch) :
    runCycle s = runCycle (performPulse fetchCell s) := by
  have hpulse := stepPulse_of_fetch hs hphase
  rw [runCycle_of_not_last, hpulse, Bool.false_or]
  rw [hpulse, not_or, not_not, performPulse_fetchCell_not_boundary hphase]
  exact ⟨rfl, Bool.false_ne_true⟩

/-- From any pulse of the Fetch phase, `RunCycle` runs the rest of that phase first (R63, R77). -/
theorem runCycle_fetchPhase {s : State} (hs : s.Performs) : runCycle (fetchPhase s) = runCycle s := by
  refine (runPulses_induct (P := fun t => runCycle t = runCycle s ∧ t.breakpointFires = false) .fetch fetchCell
    (fun t hphase hcan ⟨hrun, hquiet⟩ => ⟨?_, ?_⟩) 8 s ⟨rfl, hs.2⟩).1
  · rw [← runCycle_of_fetch_pulse ⟨hcan, hquiet⟩ hphase, hrun]
  · exact (performs_of_not_boundary ((performPulse_fetchCell_canPulse t).trans hcan)
      (performPulse_fetchCell_not_boundary hphase)).2

/-- The Fetch phase, where nothing stops it, ends at E0 with nothing that holds the Execute phase. -/
theorem fetchPhase_executing {s : State} (hcan : s.canPulse = true) (hphase : s.phase = .fetch) :
    (fetchPhase s).Executing ∧ (fetchPhase s).pulse = 0 := by
  have hend : fetchPhase s = (applyCells fetchCell (pulsesFrom s.pulse) s).setPosition .execute 0 :=
    runPhase_eq_applyCells fetchCell_ignoresPosition hphase hcan fun q t _ _ => fetchCell_canPulse q t
  have hopen : (fetchPhase s).canPulse = true :=
    (fetchPhase_keeps State.canPulse advance_canPulse fetchCell_canPulse s).trans hcan
  exact ⟨.of_gate (by rw [hend]; rfl) hopen, by rw [hend]; rfl⟩

/-- Outside the Fetch phase, or held, there is nothing left of a fetch. -/
theorem fetchPhase_eq_self {s : State} (h : ¬(s.phase = .fetch ∧ s.canPulse = true)) : fetchPhase s = s :=
  runPulses_stop .fetch fetchCell _ s h

theorem fetchPhase_of_execute {s : State} (hphase : s.phase = .execute) : fetchPhase s = s :=
  fetchPhase_eq_self (by simp [hphase])

/-! ## A `RunCycle` in the Execute phase -/

/-- ADD is the opcode 1 (R53). -/
theorem decodeWord_add_iff (w : Word) : opcodeField w = 1#4 ↔ decodeWord w = .add (addressField w) := by
  constructor
  · exact fun hop => decodeWord_of_opcode hop
  · intro hadd
    rw [← encode_decodeWord w, hadd]
    exact opcodeField_packWord 0x1#4 (addressField w)

/-- The overflow that the rest of an Execute phase reports: of an ADD, the one of A and of what Z will hold at E3 (R69, R76). -/
def executeReport (s : State) : Bool :=
  decide (opcodeField s.ir = 1#4) &&
    if s.pulse = 0 then addOverflow s.a (Memory.read s.ram (addressField s.ir))
    else if s.pulse = 1 then addOverflow s.a (Memory.read s.ram (addressField s.mar))
    else if s.pulse = 2 then addOverflow s.a s.mbr
    else if s.pulse = 3 then addOverflow s.a s.z
    else false

theorem executeReport_of_not_add {s : State} (hop : opcodeField s.ir ≠ 1#4) : executeReport s = false := by
  simp [executeReport, hop]

theorem overflowReport_of_not_add {s : State} (hop : opcodeField s.ir ≠ 1#4) : overflowReport s = false := by
  simp [overflowReport, hop]

theorem executeReport_at_last {s : State} (hlast : s.pulse = 7) : executeReport s = false := by
  simp [executeReport, hlast]

theorem overflowReport_at_last {s : State} (hlast : s.pulse = 7) : overflowReport s = false := by
  simp [overflowReport, hlast]

/-- The report of a phase is the report of its next pulse, or that of the rest. -/
theorem executeReport_performPulse {s : State} (hphase : s.phase = .execute) (hne : s.pulse ≠ 7) :
    executeReport s = (overflowReport s || executeReport (performPulse currentCell s)) := by
  by_cases hop : opcodeField s.ir = 1#4
  · have hadd := (decodeWord_add_iff s.ir).mp hop
    generalize hp : s.pulse = p at hne
    rw [performPulse_of_execute hphase, hadd, performPulse_eq (executeCell_ignoresPosition _) hphase hp, if_neg hne]
    obtain rfl | rfl | rfl | rfl | rfl | rfl | rfl | rfl := pulse_cases p
    case inr.inr.inr.inr.inr.inr.inr => exact absurd rfl hne
    all_goals simp [executeReport, overflowReport, executeCell, addCell, hop, hp, hphase, State.latchAddress,
      State.readMemory, State.latchOperand]
  · have hir : (performPulse currentCell s).ir = s.ir := by
      rw [performPulse_of_execute hphase, performPulse, advance_ir]
      obtain ⟨hir, _⟩ := executeCell_keeps (decodeWord s.ir) s.pulse s
      exact hir
    rw [executeReport_of_not_add hop, overflowReport_of_not_add hop, executeReport_of_not_add (by rwa [hir])]
    rfl

/-- A performed pulse of the Execute phase that stops the engine is no pulse of an ADD. -/
theorem not_add_of_stop {s : State} (hs : s.Executing)
    (hstops : (performPulse (executeCell (decodeWord s.ir)) s).canPulse = false) : opcodeField s.ir ≠ 1#4 := by
  intro hop
  have hadd : decodeWord s.ir = .add (addressField s.ir) := (decodeWord_add_iff s.ir).mp hop
  have hkept : (performPulse (executeCell (decodeWord s.ir)) s).canPulse = s.canPulse := by
    rw [performPulse, advance_canPulse, executeCell_canPulse (by simp [hadd, stopPulse])]
  rw [hkept, hs.canPulse] at hstops
  cases hstops

/-- The last pulse of the Execute phase that `RunCycle` performs: the one of E7, or one that stops the engine (R77). -/
theorem runCycle_of_last_execute_pulse {s : State} (hs : s.Executing)
    (hends : ¬(performPulse currentCell s).Executing) :
    runCycle s = { state := performPulse currentCell s, status := statusOf (performPulse currentCell s),
                   overflow := executeReport s } := by
  have hpulse := stepPulse_of_performs hs.performs
  have hnext := performPulse_eq (executeCell_ignoresPosition (decodeWord s.ir)) hs.phase rfl
  rw [performPulse_of_execute hs.phase] at hpulse hends ⊢
  by_cases hcan : (performPulse (executeCell (decodeWord s.ir)) s).canPulse = true
  · have hlast : s.pulse = 7 := by
      by_contra hne
      exact hends (.of_gate (by rw [hnext, if_neg hne]; rfl) hcan)
    rw [runCycle_of_last, hpulse, executeReport_at_last hlast, overflowReport_at_last hlast]
    refine .inr ((atBoundary_iff _).mpr ?_)
    rw [hpulse, hnext, if_pos hlast, hlast]
    exact ⟨rfl, rfl⟩
  · have hstops := Bool.eq_false_iff.mpr hcan
    have hpower : (performPulse (executeCell (decodeWord s.ir)) s).power = true := by
      obtain ⟨_, _, _, hkept, _⟩ := executeCell_keeps (decodeWord s.ir) s.pulse s
      exact hkept.trans hs.1
    rw [runCycle_of_last, hpulse, executeReport_of_not_add (not_add_of_stop hs hstops),
      overflowReport_of_not_add (not_add_of_stop hs hstops)]
    rw [hpulse]
    exact .inl (statusOf_of_not_canPulse hpower hstops)

/-- Any other pulse of the Execute phase: `RunCycle` goes on from the next one. -/
theorem runCycle_of_execute_pulse {s : State} (hs : s.Executing) (hgoes : (performPulse currentCell s).Executing) :
    runCycle s = { runCycle (performPulse currentCell s) with
      overflow := overflowReport s || (runCycle (performPulse currentCell s)).overflow } := by
  have hpulse := stepPulse_of_performs hs.performs
  rw [runCycle_of_not_last, hpulse]
  rw [hpulse, statusOf_of_canPulse hgoes.canPulse, atBoundary_eq_false_of_execute hgoes.phase]
  simp

theorem performPulse_ir_of_execute {s : State} (hphase : s.phase = .execute) :
    (performPulse currentCell s).ir = s.ir := by
  rw [performPulse_of_execute hphase]
  obtain ⟨hir, _⟩ := executeCell_keeps (decodeWord s.ir) s.pulse s
  exact hir

/-- While the Execute phase goes on, the pulse counts up (R60). -/
theorem val_pulse_of_execute_pulse {s : State} (hphase : s.phase = .execute)
    (hnext : (performPulse currentCell s).phase = .execute) :
    s.pulse ≠ 7 ∧ (performPulse currentCell s).pulse.val = s.pulse.val + 1 := by
  have hne : s.pulse ≠ 7 := fun hlast => by
    rw [performPulse_currentCell_phase, if_pos hlast, hphase] at hnext
    cases hnext
  exact ⟨hne, by rw [performPulse_currentCell_pulse, val_succ_of_ne_last hne]⟩

/-- From any pulse of the Execute phase, `RunCycle` leaves what `exec` of the instruction in IR leaves, and answers its status
and the report of the phase (R69, R76, R77). -/
theorem runCycle_of_executing {s t : State} (hs : s.Executing) (hexec : exec (decodeWord s.ir) s = .next t) :
    runCycle s = { state := t, status := statusOf t, overflow := executeReport s } := by
  induction hn : 7 - s.pulse.val using Nat.strong_induction_on generalizing s with
  | _ n ih =>
    rw [exec_perform hs, ← performPulse_of_execute hs.phase] at hexec
    by_cases hgoes : (performPulse currentCell s).Executing
    · obtain ⟨hne, hval⟩ := val_pulse_of_execute_pulse hs.phase hgoes.phase
      rw [← performPulse_ir_of_execute hs.phase] at hexec
      have hrest := ih _ (by have := s.pulse.isLt; have := (performPulse currentCell s).pulse.isLt; omega) hgoes hexec rfl
      rw [runCycle_of_execute_pulse hs hgoes, hrest, executeReport_performPulse hs.phase hne]
    · rw [exec_of_not_executing hgoes] at hexec
      cases hexec
      exact runCycle_of_last_execute_pulse hs hgoes

end Sys2Proof.Machine

namespace Sys2Proof.Machine

/-! ## The step is a `RunCycle` (log 1) -/

theorem step_of_no_command {s : State} (hqueue : s.hostQueue = []) : step s = runInstruction s := by
  simp [step, hqueue]

/-- A step that nothing stops is `exec` of the word fetched, after the rest of the Fetch phase. -/
theorem runInstruction_of_performs {s : State} (hs : s.Performs) :
    runInstruction s = exec (decodeWord (fetchPhase s).ir) (fetchPhase s) := by
  obtain ⟨hpower, hhalted, _⟩ := (canPulse_iff s).mp hs.1
  have hphase : (fetchPhase s).phase = .execute := by
    cases hphase : s.phase with
    | fetch => exact (fetchPhase_executing hs.1 hphase).1.phase
    | execute => rw [fetchPhase_of_execute hphase, hphase]
  simp [runInstruction, hpower, hhalted, hs.2, hphase]

/-- A step that performs no pulse leaves what a `StepPulse` leaves (R70). -/
theorem runInstruction_of_not_performs {s : State} (hs : ¬s.Performs) : runInstruction s = .next (stepPulse s).state := by
  by_cases hstop : s.power = false ∨ s.halted = true
  · rw [stepPulse_halted s hstop]
    obtain hpower | hhalted := hstop
    · simp [runInstruction, hpower]
    · simp [runInstruction, hhalted]
  simp only [not_or, Bool.not_eq_false, Bool.not_eq_true] at hstop
  obtain ⟨hpower, hhalted⟩ := hstop
  cases hfires : s.breakpointFires with
  | true =>
    rw [stepPulse_breakpoint s hpower hhalted hfires]
    simp [runInstruction, hpower, hhalted, hfires]
  | false =>
    have hcan : ¬s.canPulse = true := fun hcan => hs ⟨hcan, hfires⟩
    have hpending : s.io ≠ .idle := fun hio => hcan ((canPulse_iff s).mpr ⟨hpower, hhalted, hio⟩)
    rw [stepPulse_pending hpower hhalted hfires hpending]
    simp [runInstruction, hpower, hhalted, hfires, fetchPhase_eq_self fun h => hcan h.2,
      exec_hold (i := decodeWord s.ir) fun h => hcan h.2]

/-- The state after the Fetch phase, where nothing stops the cycle, is that of an Execute phase about to go on. -/
theorem fetchPhase_executing_of_performs {s : State} (hs : s.Performs) : (fetchPhase s).Executing := by
  cases hphase : s.phase with
  | fetch => exact (fetchPhase_executing hs.1 hphase).1
  | execute =>
    rw [fetchPhase_of_execute hphase]
    exact .of_gate hphase hs.1

/-- A whole `RunCycle` that nothing stops at once, from any pulse (R77). -/
theorem runCycle_of_performs {s t : State} (hs : s.Performs)
    (hexec : exec (decodeWord (fetchPhase s).ir) (fetchPhase s) = .next t) :
    runCycle s = { state := t, status := statusOf t, overflow := executeReport (fetchPhase s) } := by
  rw [← runCycle_fetchPhase hs]
  exact runCycle_of_executing (fetchPhase_executing_of_performs hs) hexec

theorem runInstruction_eq_runCycle (s : State) : runInstruction s = .next (runCycle s).state := by
  by_cases hs : s.Performs
  · rw [runInstruction_of_performs hs, exec_eq, runCycle_of_performs hs (exec_eq _ _)]
  · rw [runInstruction_of_not_performs hs, runCycle_of_not_performs hs]

/-- Settles O13: where a pulse is performed the loop of pulses is the rest of the fetch and then `exec`, and where none is
both leave what one `StepPulse` leaves. -/
theorem stepIsRunCycle : Obligations.StepIsRunCycle := fun s hqueue =>
  (step_of_no_command hqueue).trans (runInstruction_eq_runCycle s)

/-- Settles O15: a step is a command or a `RunCycle`, and both leave a state. -/
theorem everyStepAnswers : Obligations.EveryStepAnswers := by
  intro s
  cases hqueue : s.hostQueue with
  | nil => exact ⟨_, stepIsRunCycle s hqueue⟩
  | cons c rest => exact ⟨serveCommand c rest s, by simp [step, hqueue]⟩

/-- The whole Fetch phase from a boundary (R63). -/
theorem fetchPhase_of_ready {s : State} (hs : s.ReadyToFetch) :
    fetchPhase s =
      { s.setPosition .execute 0 with
        mar := s.pc, mbr := Memory.read s.ram s.pcAddr, ir := Memory.read s.ram s.pcAddr,
        pc := zext16 (s.pcAddr + 1#12), ovf := false, bpskip := { s.bpskip with valid := false } } := by
  obtain ⟨hpower, hhalted, hio, hphase, hpulse, _⟩ := hs
  rw [fetchFromEachPulse s hpower hhalted hio hphase, if_pos hpulse]

/-- Settles O12: from a boundary the fetch loads the word of `i`, and in the Execute phase nothing is left of the fetch. -/
theorem stepRunsTheDecodedInstruction : Obligations.StepRunsTheDecodedInstruction := by
  refine ⟨fun i s hs hqueue hword => ?_, fun i s hs hqueue hir => ?_⟩
  · rw [step_of_no_command hqueue, runInstruction_of_performs hs.performs, fetchPhase_of_ready hs, hword,
      decodeWord_encode]
  · rw [step_of_no_command hqueue, runInstruction_of_performs hs.performs, fetchPhase_of_execute hs.phase, hir,
      decodeWord_encode]

/-! ## The stops of R70 -/

theorem not_performs_of_stop {s : State}
    (hstop : s.power = false ∨ s.halted = true ∨ s.breakpointFires = true ∨ s.io ≠ .idle) : ¬s.Performs := by
  rintro ⟨hcan, hquiet⟩
  obtain ⟨hpower, hhalted, hio⟩ := (canPulse_iff s).mp hcan
  simp [hpower, hhalted, hquiet, hio] at hstop

/-- Settles O17: power and `halted` are the first check of a pulse, and power of a completion and of `Resume`. -/
theorem haltedOrOffStands : Obligations.HaltedOrOffStands := by
  refine ⟨fun s hstop => ?_, fun s b hoff => ⟨?_, ?_, ?_⟩⟩
  · have hpulse := stepPulse_halted s hstop
    have hcycle : runCycle s = { state := s, status := .halted, overflow := false } :=
      (runCycle_of_not_performs (not_performs_of_stop (by tauto))).trans hpulse
    exact ⟨hpulse, hcycle, fun hqueue => by rw [stepIsRunCycle s hqueue, hcycle]⟩
  · rw [command, completeInput_off b hoff]
  · rw [command, completeOutput_off hoff]
  · rw [command, resume_off hoff]

theorem breakpointFires_iff (s : State) :
    s.breakpointFires = true ↔
      s.phase = .fetch ∧ s.pulse = 0 ∧ s.pcAddr ∈ s.bp ∧ ¬(s.bpskip.valid = true ∧ s.bpskip.addr = s.pcAddr) := by
  simp only [State.breakpointFires, Bool.and_eq_true, atBoundary_iff, decide_eq_true_eq, Bool.not_eq_true',
    ← Bool.not_eq_true, and_assoc]

/-- The comparator passes the address that the latch names (R129). -/
theorem breakpointFires_of_bypassed {s : State} (hvalid : s.bpskip.valid = true) (haddr : s.bpskip.addr = s.pcAddr) :
    s.breakpointFires = false := by
  simp [State.breakpointFires, hvalid, haddr]

/-- The status of a pulse that the comparator does not stop names no breakpoint (R76). -/
theorem statusOf_ne_breakpointHit (s : State) (x : Addr) : statusOf s ≠ .breakpointHit x := by
  unfold statusOf
  split
  · nofun
  · split <;> nofun

/-- A breakpoint is reported exactly where the comparator fires with power on and no halt (R69 steps 1 and 2). -/
theorem stepPulse_status_breakpointHit_iff (s : State) (x : Addr) :
    (stepPulse s).status = .breakpointHit x ↔
      s.power = true ∧ s.halted = false ∧ s.breakpointFires = true ∧ x = s.pcAddr := by
  by_cases hstop : s.power = false ∨ s.halted = true
  · rw [stepPulse_halted s hstop]
    obtain h | h := hstop <;> simp [h]
  simp only [not_or, Bool.not_eq_false, Bool.not_eq_true] at hstop
  obtain ⟨hpower, hhalted⟩ := hstop
  cases hfires : s.breakpointFires with
  | true => simp [stepPulse_breakpoint s hpower hhalted hfires, hpower, hhalted, eq_comm]
  | false =>
    have hstatus : (stepPulse s).status ≠ .breakpointHit x := by
      by_cases hio : s.io = .idle
      · rw [stepPulse_of_performs ⟨(canPulse_iff s).mpr ⟨hpower, hhalted, hio⟩, hfires⟩]
        exact statusOf_ne_breakpointHit _ x
      · rw [stepPulse_pending hpower hhalted hfires hio]
        exact statusOf_ne_breakpointHit s x
    simp [hstatus]

/-- What a reported hit is: the latch set at PC[11:0] (R128). -/
theorem stepPulse_of_hit {s : State} {x : Addr} (hhit : (stepPulse s).status = .breakpointHit x) :
    stepPulse s = { state := s.setBypass { valid := true, addr := x }, status := .breakpointHit x, overflow := false } := by
  obtain ⟨hpower, hhalted, hfires, rfl⟩ := (stepPulse_status_breakpointHit_iff s x).mp hhit
  exact stepPulse_breakpoint s hpower hhalted hfires

/-- Settles O18: the comparator is the one check that answers `BreakpointHit`, and a hit ends a cycle at its first pulse. -/
theorem breakpointStopsBeforeTheFetch : Obligations.BreakpointStopsBeforeTheFetch := by
  refine fun s x => ⟨?_, fun hhit => ?_⟩
  · rw [stepPulse_status_breakpointHit_iff, breakpointFires_iff]
    unfold State.pcAddr
    constructor
    · rintro ⟨hpower, hhalted, ⟨hphase, hpulse, hmem, hskip⟩, rfl⟩
      exact ⟨hpower, hhalted, hphase, hpulse, rfl, hmem, hskip⟩
    · rintro ⟨hpower, hhalted, hphase, hpulse, rfl, hmem, hskip⟩
      exact ⟨hpower, hhalted, ⟨hphase, hpulse, hmem, hskip⟩, rfl⟩
  · have hcycle : runCycle s = stepPulse s := runCycle_of_stop (by rw [hhit]; nofun)
    exact ⟨stepPulse_of_hit hhit, hcycle, fun hqueue => by rw [stepIsRunCycle s hqueue, hcycle]⟩

/-- Settles O19: the latch that the hit sets names the address of the next comparison, and no other. -/
theorem bypassPassesOnce : Obligations.BypassPassesOnce := by
  intro s x hio hhit
  obtain ⟨hpower, hhalted, hfires, rfl⟩ := (stepPulse_status_breakpointHit_iff s x).mp hhit
  obtain ⟨hphase, hpulse, _⟩ := (breakpointFires_iff s).mp hfires
  rw [stepPulse_of_hit hhit]
  refine ⟨?_, fun y hne hmem => ?_⟩
  · have hnext : (s.setBypass { valid := true, addr := s.pcAddr }).Performs :=
      ⟨(canPulse_iff _).mpr ⟨hpower, hhalted, hio⟩,
        breakpointFires_of_bypassed rfl rfl⟩
    have hnextPulse := performPulse_eq (s := s.setBypass { valid := true, addr := s.pcAddr }) fetchCell_ignoresPosition
      hphase hpulse
    rw [stepPulse_of_fetch hnext hphase, hnextPulse]
    rfl
  · rw [stepPulse_status_breakpointHit_iff, breakpointFires_iff]
    exact ⟨hpower, hhalted, ⟨hphase, hpulse, hmem, fun h => hne h.2.symm⟩, rfl⟩

/-! ## The overflow bit (R76) -/

theorem stepPulse_overflow_iff (s : State) :
    (stepPulse s).overflow = true ↔ s.Performs ∧ overflowReport s = true := by
  by_cases hs : s.Performs
  · rw [stepPulse_of_performs hs]
    exact (and_iff_right hs).symm
  · rw [(stepPulse_of_not_performs hs).2]
    simp [hs]

theorem runCycle_overflow_of_performs {s : State} (hs : s.Performs) :
    (runCycle s).overflow = executeReport (fetchPhase s) := by
  rw [runCycle_of_performs hs (exec_eq _ _)]

/-- From any pulse of the Fetch phase, the report is that of the word fetched, entered at E0. -/
theorem runCycle_overflow_of_fetch {s : State} (hs : s.Performs) (hphase : s.phase = .fetch) :
    (runCycle s).overflow =
      (decide (opcodeField (fetchPhase s).ir = 1#4) &&
        addOverflow s.a (Memory.read s.ram (addressField (fetchPhase s).ir))) := by
  have ha : (fetchPhase s).a = s.a := (fetchFrame s).1 .a (by decide)
  rw [runCycle_overflow_of_performs hs, executeReport, (fetchPhase_executing hs.1 hphase).2, if_pos rfl, ha,
    fetchPhase_ram]

/-- A whole ADD goes on to the next boundary. -/
theorem runCycle_status_of_add {s : State} {a : Addr} (hs : s.Performs)
    (hword : (fetchPhase s).ir = encode (.add a)) : (runCycle s).status = .continuing := by
  have hexec : exec (.add a) (fetchPhase s) = .next (runExecute (executeCell (.add a)) (fetchPhase s)) := exec_eq _ _
  have ⟨_, hhalted, hio, _⟩ := fetchPhase_executing_of_performs hs
  rw [runCycle_of_performs hs (by rw [hword, decodeWord_encode]; exact hexec)]
  refine (statusOf_eq_continuing_iff _).mpr ⟨?_, ?_⟩
  · rw [exec_halted hexec (by simp), hhalted]
  · rw [(exec_handshakeKept hexec (by simp) (by simp)).1, hio]

/-- Settles O20: the bit is the report of the pulses performed, and that of a phase is the one at E3 of an ADD. -/
theorem overflowIsReported : Obligations.OverflowIsReported := by
  refine ⟨fun s => ?_, fun s a hs hword => ?_, fun s hs hop => ?_, fun s hpower hhalted hio hphase hquiet => ?_,
    fun s hs => ?_, fun s hstop => ?_⟩
  · rw [stepPulse_overflow_iff]
    simp only [overflowReport, Bool.and_eq_true, decide_eq_true_eq]
    constructor
    · rintro ⟨⟨hcan, _⟩, ⟨⟨hphase, hop⟩, hpulse⟩, hover⟩
      obtain ⟨hpower, hhalted, hio⟩ := (canPulse_iff s).mp hcan
      exact ⟨hpower, hhalted, hio, hphase, hpulse, hop, hover⟩
    · rintro ⟨hpower, hhalted, hio, hphase, hpulse, hop, hover⟩
      exact ⟨State.Executing.performs ⟨hpower, hhalted, hio, hphase⟩, ⟨⟨hphase, hop⟩, hpulse⟩, hover⟩
  · have hir : (fetchPhase s).ir = encode (.add a) := by rw [fetchPhase_of_ready hs]; exact hword
    refine ⟨runCycle_status_of_add hs.performs hir, ?_⟩
    have hfields : opcodeField (encode (.add a)) = 1#4 ∧ addressField (encode (.add a)) = a :=
      ⟨opcodeField_packWord _ _, addressField_packWord _ _⟩
    rw [runCycle_overflow_of_fetch hs.performs hs.phase, hir, hfields.1, hfields.2, decide_eq_true rfl, Bool.true_and]
  · rw [runCycle_overflow_of_performs hs.performs]
    exact executeReport_of_not_add (by rw [fetchPhase_of_ready hs]; exact hop)
  · exact runCycle_overflow_of_fetch ⟨(canPulse_iff s).mpr ⟨hpower, hhalted, hio⟩, hquiet⟩ hphase
  · rw [runCycle_overflow_of_performs hs.performs, fetchPhase_of_execute hs.phase]
    rfl
  · have hnone := not_performs_of_stop hstop
    rw [runCycle_of_not_performs hnone]
    exact (stepPulse_of_not_performs hnone).2

end Sys2Proof.Machine

namespace Sys2Proof.Machine

/-! ## Every pulse keeps the invariants (R32) -/

/-- F0 clears the bypass latch, the later pulses leave it (D9). -/
theorem fetchCell_bpskip_valid (p : Fin 8) (s : State) :
    (fetchCell p s).bpskip.valid = if p = 0 then false else s.bpskip.valid := by
  fin_cases p <;> rfl

/-- A pulse of the Fetch phase: nothing is pending or halted, and after F0 the latch is clear (D9). -/
theorem State.Inv.fetch_pulse {s : State} (hinv : s.Inv) (hcan : s.canPulse = true) :
    (performPulse fetchCell s).Inv := by
  obtain ⟨_, hhalted, hio⟩ := (canPulse_iff s).mp hcan
  obtain ⟨_, _, _, hskip, hram, hbp⟩ := hinv
  obtain ⟨_, _, _, _, _, _, hramKept, _, _, _, hbpKept, hioKept, _, hhaltedKept, _⟩ := fetchCell_keeps s.pulse s
  have hidle : (performPulse fetchCell s).io = .idle := hioKept.trans hio
  have hruns : (performPulse fetchCell s).halted = false := hhaltedKept.trans hhalted
  have hclear : (performPulse fetchCell s).bpskip.valid = false := by
    change (fetchCell s.pulse s).bpskip.valid = false
    rw [fetchCell_bpskip_valid]
    split
    · rfl
    · next hlater => exact Bool.eq_false_iff.mpr fun hvalid => hlater (hskip hvalid).2
  refine ⟨?_, ?_, ?_, ?_, ?_, ?_⟩
  · simp [hidle]
  · simp [hidle]
  · simp [hruns]
  · simp [hclear]
  · exact (congrArg Memory.wf hramKept).trans hram
  · exact (congrArg breakpointsWf hbpKept).trans hbp

/-- A pulse of the Execute phase: INP enters its transfer on the way to E1, OUT on the way to E2, and HLT halts on the way to
F0 (D8, D11, D12). -/
theorem State.Inv.execute_pulse {s : State} (hinv : s.Inv) (i : Instr) (hcan : s.canPulse = true)
    (hphase : s.phase = .execute) : (performPulse (executeCell i) s).Inv := by
  obtain ⟨_, hhalted, hio⟩ := (canPulse_iff s).mp hcan
  obtain ⟨_, _, _, hskip, hram, hbp⟩ := hinv
  have heffect := executeCell_effect i s.pulse s
  obtain ⟨_, _, _, _, hbpKept, hskipKept, _⟩ := executeCell_keeps i s.pulse s
  have hnext (p : Fin 8) (hpulse : s.pulse = p) := performPulse_eq (executeCell_ignoresPosition i) hphase hpulse
  refine ⟨fun hin => ?_, fun hout => ?_, fun hhalts => ?_, fun hvalid => ?_, ?_, ?_⟩
  · change (executeCell i s.pulse s).io = .awaitIn at hin
    obtain ⟨hkept, _⟩ | ⟨hpulse, _⟩ | ⟨_, _, hout, _⟩ := heffect.handshake_cases
    · simp [hkept, hio] at hin
    · rw [hnext 0 hpulse]; exact ⟨rfl, rfl⟩
    · simp [hout] at hin
  · change (executeCell i s.pulse s).io = .awaitOut at hout
    obtain ⟨hkept, _⟩ | ⟨_, _, hin, _⟩ | ⟨hpulse, _⟩ := heffect.handshake_cases
    · simp [hkept, hio] at hout
    · simp [hin] at hout
    · rw [hnext 1 hpulse]; exact ⟨rfl, rfl⟩
  · change (executeCell i s.pulse s).halted = true at hhalts
    obtain hkept | ⟨hpulse, _⟩ := heffect.halted_cases
    · simp [hkept, hhalted] at hhalts
    · rw [hnext 7 hpulse]; exact ⟨rfl, rfl⟩
  · have hfetch := (hskip ((congrArg Bypass.valid hskipKept).symm.trans hvalid)).1
    rw [hphase] at hfetch
    cases hfetch
  · change Memory.wf (executeCell i s.pulse s).ram = true
    obtain hkept | ⟨_, _, hwrite⟩ := heffect.ram_cases
    · rw [hkept]; exact hram
    · rw [hwrite]; exact write_wf _ _ _ hram
  · exact (congrArg breakpointsWf hbpKept).trans hbp

/-- A hit sets the latch at a boundary, where the invariant allows it (R128). -/
theorem State.Inv.hitBreakpoint {s : State} (hinv : s.Inv) (hfires : s.breakpointFires = true) : s.hitBreakpoint.Inv := by
  obtain ⟨hin, hout, hhalt, _, hram, hbp⟩ := hinv
  exact ⟨hin, hout, hhalt, fun _ => (atBoundary_iff s).mp (breakpointFires_atBoundary s hfires), hram, hbp⟩

theorem State.Inv.stepPulse {s : State} (hinv : s.Inv) : (stepPulse s).state.Inv := by
  obtain hstay | ⟨hfires, hhit⟩ | ⟨hcan, _, hpulse⟩ := stepPulse_state_cases s
  · rw [hstay]; exact hinv
  · rw [hhit]; exact hinv.hitBreakpoint hfires
  · rw [hpulse]
    cases hphase : s.phase with
    | fetch => rw [performPulse_of_fetch hphase]; exact hinv.fetch_pulse hcan
    | execute => rw [performPulse_of_execute hphase]; exact hinv.execute_pulse _ hcan hphase

theorem State.Inv.runCycle {s : State} (hinv : s.Inv) : (runCycle s).state.Inv :=
  runCycleLoop_induct (P := State.Inv) (fun _ => State.Inv.stepPulse) 16 false s hinv

/-! ## Every command keeps them -/

theorem State.Inv.writeReg {s : State} (hinv : s.Inv) (r : Reg) (v : Word) : (s.writeReg r v).Inv := by
  simpa only [State.Inv, writeReg_io, writeReg_phase, writeReg_pulse, writeReg_halted, writeReg_bpskip, writeReg_ram,
    writeReg_bp] using hinv

/-- The end of a transfer frees the engine from the clauses about a pending one. -/
theorem State.Inv.setHandshake_idle {s : State} (hinv : s.Inv) (ready : Bool) : (s.setHandshake .idle ready).Inv := by
  obtain ⟨_, _, hhalt, hskip, hram, hbp⟩ := hinv
  exact ⟨nofun, nofun, hhalt, hskip, hram, hbp⟩

theorem State.Inv.loadProgram {s : State} (hinv : s.Inv) (words : List Word) : (loadProgram words s).1.Inv := by
  unfold Machine.loadProgram
  split
  · obtain ⟨hin, hout, hhalt, hskip, hram, hbp⟩ := hinv
    exact ⟨hin, hout, hhalt, hskip, load_wf 0 words s.ram hram, hbp⟩
  · exact hinv

theorem State.Inv.runProgram {s : State} (hinv : s.Inv) (cycles : Nat) (words : List Word) :
    (runProgram cycles words s).1.Inv := by
  unfold Machine.runProgram
  split
  · exact runProgramLoop_induct (P := State.Inv) (fun _ => State.Inv.stepPulse) cycles _ (hinv.loadProgram words)
  · exact hinv

theorem State.Inv.writeRegister {s : State} (hinv : s.Inv) (sel : Fin 16) (v : Word) : (writeRegister sel v s).1.Inv := by
  unfold Machine.writeRegister
  split
  · exact hinv.writeReg _ v
  · exact hinv

theorem State.Inv.setBreakpoint {s : State} (hinv : s.Inv) (addr : Nat) : (setBreakpoint addr s).1.Inv := by
  unfold Machine.setBreakpoint
  split
  · obtain ⟨hin, hout, hhalt, hskip, hram, hbp⟩ := hinv
    exact ⟨hin, hout, hhalt, hskip, hram, insertBreakpoint_wf _ _ hbp⟩
  · exact hinv

theorem State.Inv.clearBreakpoints {s : State} (hinv : s.Inv) : (clearBreakpoints s).Inv := by
  obtain ⟨hin, hout, hhalt, _, hram, _⟩ := hinv
  exact ⟨hin, hout, hhalt, nofun, hram, rfl⟩

theorem State.Inv.completeInput {s : State} (hinv : s.Inv) (b : Byte) : (completeInput b s).1.Inv := by
  unfold Machine.completeInput
  split
  · exact State.Inv.setHandshake_idle ((hinv.writeReg _ _).writeReg _ _) true
  · exact hinv

theorem State.Inv.completeOutput {s : State} (hinv : s.Inv) : (completeOutput s).1.Inv := by
  unfold Machine.completeOutput
  split
  · exact hinv.setHandshake_idle true
  · exact hinv

theorem State.Inv.resume {s : State} (hinv : s.Inv) : (resume s).Inv := by
  unfold Machine.resume
  split
  · obtain ⟨hin, hout, _, hskip, hram, hbp⟩ := hinv
    exact ⟨hin, hout, nofun, hskip, hram, hbp⟩
  · exact hinv

theorem reset_inv : State.reset.Inv := by decide

/-- Every command keeps the invariants, and `Construct` sets them up. -/
theorem State.Inv.command {s : State} (hinv : s.Inv) (c : Command) : (command c s).1.Inv := by
  cases c with
  | construct cfg => exact reset_inv
  | loadProgram words => exact hinv.loadProgram words
  | stepPulse => exact hinv.stepPulse
  | runCycle => exact hinv.runCycle
  | runProgram cycles words => exact hinv.runProgram cycles words
  | writeRegister sel v => exact hinv.writeRegister sel v
  | setBreakpoint addr => exact hinv.setBreakpoint addr
  | clearBreakpoints => exact hinv.clearBreakpoints
  | completeInput b => exact hinv.completeInput b
  | completeOutput => exact hinv.completeOutput
  | resume => exact hinv.resume
  | readRegister | dumpMemory | powerOff | observe => exact hinv

/-- Settles O51: a step is one command or a `RunCycle`, and each keeps the invariants. -/
theorem everyStepKeepsTheInvariants : Obligations.EveryStepKeepsTheInvariants := by
  intro s t hinv hstep
  cases hqueue : s.hostQueue with
  | nil =>
    rw [stepIsRunCycle s hqueue] at hstep
    cases hstep
    exact hinv.runCycle
  | cons c rest =>
    simp only [step, hqueue] at hstep
    cases hstep
    exact State.Inv.command (s := s.setHostQueue rest) hinv c

/-- Settles O53: `Construct` builds the state at reset, whose lists are empty and whose latches are clear. -/
theorem resetMeetsTheInvariants : Obligations.ResetMeetsTheInvariants := ⟨reset_inv, fun _ => reset_inv⟩

/-- Settles O52: `Construct` sets the invariants up and every command keeps them. -/
theorem reachableStatesMeetTheInvariants : Obligations.ReachableStatesMeetTheInvariants := by
  intro s hs
  induction hs with
  | construct cfg => exact reset_inv
  | command c s _ ih => exact ih.command c

/-! ## PC keeps 12 bits (D5) -/

theorem fetchCell_pc_cases (p : Fin 8) (s : State) : (fetchCell p s).pc = s.pc ∨ (fetchCell p s).pc.toNat < 4096 := by
  unfold fetchCell
  split
  exacts [.inl rfl, .inl rfl, .inl rfl, .inr (zext16_toNat_lt _), .inl rfl]

theorem stepPulse_pc_cases (s : State) :
    (stepPulse s).state.pc = s.pc ∨ (stepPulse s).state.pc.toNat < 4096 := by
  obtain hstay | ⟨_, hhit⟩ | ⟨_, _, hpulse⟩ := stepPulse_state_cases s
  · exact .inl (congrArg State.pc hstay)
  · exact .inl (by rw [hhit]; rfl)
  · rw [hpulse]
    cases hphase : s.phase with
    | fetch => rw [performPulse_of_fetch hphase]; exact fetchCell_pc_cases s.pulse s
    | execute => rw [performPulse_of_execute hphase]; exact (executeCell_effect _ s.pulse s).pc_cases

/-- Settles O45: a pulse that writes PC writes an effective address, and a step is a loop of pulses. -/
theorem engineKeepsPcEffective : Obligations.EngineKeepsPcEffective := by
  intro s t hqueue hstep
  rw [stepIsRunCycle s hqueue] at hstep
  cases hstep
  refine runCycleLoop_induct (P := fun u => u.pc = s.pc ∨ u.pc.toNat < 4096) (fun u hu => ?_) 16 false s (.inl rfl)
  obtain hkept | hlow := stepPulse_pc_cases u
  · rwa [hkept]
  · exact .inr hlow

/-! ## Which pulse writes memory, which moves the handshake -/

theorem opcodeField_of_decodeWord {w : Word} {i : Instr} (hdecode : decodeWord w = i) :
    opcodeField w = opcodeField (encode i) := by
  rw [← hdecode, encode_decodeWord]

/-- A pulse that changes a state field kept by every fetch cell and by a hit is a pulse of the Execute phase. -/
theorem execute_pulse_of_change {α : Type} (f : State → α) (hbypass : ∀ s l, f (s.setBypass l) = f s)
    (hfetch : ∀ p s, f (fetchCell p s) = f s) (hadv : ∀ s, f s.advance = f s) {s : State}
    (hchange : f (stepPulse s).state ≠ f s) :
    s.canPulse = true ∧ s.phase = .execute ∧
      (stepPulse s).state = (executeCell (decodeWord s.ir) s.pulse s).advance := by
  obtain hstay | ⟨_, hhit⟩ | ⟨hcan, _, hpulse⟩ := stepPulse_state_cases s
  · rw [hstay] at hchange; exact absurd rfl hchange
  · rw [hhit] at hchange; exact absurd (hbypass s _) hchange
  · cases hphase : s.phase with
    | fetch =>
      rw [hpulse, performPulse_of_fetch hphase] at hchange
      exact absurd ((hadv _).trans (hfetch s.pulse s)) hchange
    | execute => exact ⟨hcan, rfl, hpulse.trans (performPulse_of_execute hphase)⟩

/-- Settles O47: of the cells only E2 of STA and of SRJ write memory, at MAR. -/
theorem onlyStoresWriteMemory : Obligations.OnlyStoresWriteMemory := by
  intro s x hchange
  have hram : (stepPulse s).state.ram ≠ s.ram := fun h => hchange (by rw [h])
  obtain ⟨_, hphase, hnext⟩ := execute_pulse_of_change State.ram setBypass_ram
    (fun p s => by fin_cases p <;> rfl) advance_ram hram
  rw [hnext, advance_ram] at hram hchange ⊢
  obtain hkept | ⟨hpulse, hstore, hwrite⟩ := (executeCell_effect (decodeWord s.ir) s.pulse s).ram_cases
  · exact absurd hkept hram
  rw [hwrite] at hchange ⊢
  have hx : x = addressField s.mar := by_contra fun hne => hchange (read_write_ne s.ram _ x s.mbr hne)
  refine ⟨hphase, hpulse, ?_, hx, fun hwf => by rw [hx]; exact read_write_same s.ram _ s.mbr hwf⟩
  obtain ⟨a, hdecode⟩ | ⟨a, hdecode⟩ := hstore
  · exact .inl ((opcodeField_of_decodeWord hdecode).trans (opcodeField_packWord _ a))
  · exact .inr ((opcodeField_of_decodeWord hdecode).trans (opcodeField_packWord _ a))

end Sys2Proof.Machine

namespace Sys2Proof.Machine

/-! ## The host's side of the position and of the handshake (R108) -/

/-- A command that performs no pulse and builds no engine keeps the position, and the handshake too unless it is a completion
that ends the pending transfer. -/
theorem command_keeps_handshake {c : Command} (s : State) (hpulse : c ≠ .stepPulse) (hcycle : c ≠ .runCycle)
    (hprogram : ∀ n ws, c ≠ .runProgram n ws) (hnew : ∀ cfg, c ≠ .construct cfg) :
    (command c s).1.phase = s.phase ∧ (command c s).1.pulse = s.pulse ∧
    (((command c s).1.io = s.io ∧ (command c s).1.ready = s.ready) ∨
      (s.io ≠ .idle ∧ (command c s).1.io = .idle ∧ (command c s).2 = .accepted ∧
        (c = .completeOutput ∨ ∃ b, c = .completeInput b))) := by
  cases c with
  | stepPulse => exact absurd rfl hpulse
  | runCycle => exact absurd rfl hcycle
  | runProgram n ws => exact absurd rfl (hprogram n ws)
  | construct cfg => exact absurd rfl (hnew cfg)
  | loadProgram words =>
    simp only [command, loadProgram]
    split <;> exact ⟨rfl, rfl, .inl ⟨rfl, rfl⟩⟩
  | writeRegister sel v =>
    simp only [command, writeRegister]
    split
    · simp
    · exact ⟨rfl, rfl, .inl ⟨rfl, rfl⟩⟩
  | setBreakpoint addr =>
    simp only [command, setBreakpoint]
    split <;> exact ⟨rfl, rfl, .inl ⟨rfl, rfl⟩⟩
  | completeInput b =>
    rw [command_completeInput]
    split
    · next hpending => exact ⟨rfl, rfl, .inr ⟨by simp [hpending.2], rfl, rfl, .inr ⟨b, rfl⟩⟩⟩
    · exact ⟨rfl, rfl, .inl ⟨rfl, rfl⟩⟩
  | completeOutput =>
    rw [command_completeOutput]
    split
    · next hpending => exact ⟨rfl, rfl, .inr ⟨by simp [hpending.2], rfl, rfl, .inl rfl⟩⟩
    · exact ⟨rfl, rfl, .inl ⟨rfl, rfl⟩⟩
  | resume =>
    simp only [command, resume]
    split <;> exact ⟨rfl, rfl, .inl ⟨rfl, rfl⟩⟩
  | readRegister | dumpMemory | clearBreakpoints | powerOff | observe => exact ⟨rfl, rfl, .inl ⟨rfl, rfl⟩⟩

/-- Settles O48: of these commands only an accepted completion touches the sequencer's state, and that only in `io`. -/
theorem hostKeepsThePosition : Obligations.HostKeepsThePosition := by
  intro c s hpulse hcycle hprogram hnew
  obtain ⟨hphase, hat, hmoves⟩ := command_keeps_handshake s hpulse hcycle hprogram hnew
  exact ⟨hphase, hat, hmoves.imp_left And.left⟩

/-! ## The four transitions of the handshake (R108) -/

theorem State.PulseAt.executing {s : State} {p : Fin 8} (hs : s.PulseAt .execute p) : s.Executing := by
  obtain ⟨hpower, hhalted, hio, hphase, _⟩ := hs
  exact ⟨hpower, hhalted, hio, hphase⟩

theorem stepPulse_of_pulseAt_execute {s : State} {p : Fin 8} (hs : s.PulseAt .execute p) (hne : p ≠ 7) :
    (stepPulse s).state = (executeCell (decodeWord s.ir) p s).setPosition .execute (p + 1) ∧
    (stepPulse s).status = statusOf ((executeCell (decodeWord s.ir) p s).setPosition .execute (p + 1)) := by
  have ⟨_, _, _, hphase, hpulse⟩ := hs
  rw [stepPulse_of_performs hs.executing.performs, performPulse_of_execute hphase,
    performPulse_eq (executeCell_ignoresPosition _) hphase hpulse, if_neg hne]
  exact ⟨rfl, rfl⟩

/-- Settles O49: of the cells only E0 of INP and E1 of OUT move the handshake, of the commands only a completion, and under the
invariants a pending transfer leaves a step nothing to perform. -/
theorem handshakeTransitions : Obligations.HandshakeTransitions := by
  refine ⟨fun s hs hop => ?_, fun s hs hop => ?_, fun s b => command_completeInput b s, command_completeOutput,
    fun s hmoves => ?_, fun c s hpulse hcycle hprogram hnew hmoves => ?_, fun s hinv hpending hqueue => ?_⟩
  · have ⟨_, hhalted, _⟩ := hs
    obtain ⟨hstate, hstatus⟩ := stepPulse_of_pulseAt_execute hs (by decide)
    have hinp : decodeWord s.ir = .inp (addressField s.ir) := decodeWord_of_opcode hop
    rw [hinp] at hstate hstatus
    rw [hstate, hstatus]
    exact ⟨rfl, rfl, statusOf_awaitIn hhalted rfl⟩
  · have ⟨_, hhalted, _⟩ := hs
    obtain ⟨hstate, hstatus⟩ := stepPulse_of_pulseAt_execute hs (by decide)
    have hout : decodeWord s.ir = .out (addressField s.ir) := decodeWord_of_opcode hop
    rw [hout] at hstate hstatus
    rw [hstate, hstatus]
    exact ⟨rfl, rfl, statusOf_awaitOut hhalted rfl⟩
  · have hchange : ((stepPulse s).state.io, (stepPulse s).state.ready) ≠ (s.io, s.ready) := by
      rw [Ne, Prod.mk.injEq]; tauto
    obtain ⟨hcan, hphase, hnext⟩ := execute_pulse_of_change (fun t => (t.io, t.ready)) (fun _ _ => rfl)
      (fun p s => by fin_cases p <;> rfl) (fun _ => rfl) hchange
    obtain ⟨hpower, hhalted, hio⟩ := (canPulse_iff s).mp hcan
    rw [hnext] at hmoves
    obtain ⟨hioKept, hreadyKept⟩ | ⟨hpulse, ⟨a, hdecode⟩, _⟩ | ⟨hpulse, ⟨a, hdecode⟩, _⟩ :=
      (executeCell_effect (decodeWord s.ir) s.pulse s).handshake_cases
    · simp [hioKept, hreadyKept] at hmoves
    · exact .inl ⟨⟨hpower, hhalted, hio, hphase, hpulse⟩,
        (opcodeField_of_decodeWord hdecode).trans (opcodeField_packWord _ a)⟩
    · exact .inr ⟨⟨hpower, hhalted, hio, hphase, hpulse⟩,
        (opcodeField_of_decodeWord hdecode).trans (opcodeField_packWord _ a)⟩
  · obtain ⟨_, _, ⟨hio, hready⟩ | ⟨_, _, haccepted, _⟩⟩ := command_keeps_handshake s hpulse hcycle hprogram hnew
    · simp [hio, hready] at hmoves
    · exact haccepted
  · have hcycle : (runCycle s).state = s := by
      cases hpower : s.power with
      | false => rw [runCycle_off hpower]
      | true => rw [(pulses_pending hinv hpower hpending).2]
    rw [stepIsRunCycle s hqueue, hcycle]

/-! ## Nothing reads the device latches (R114, R140) -/

/-- The state with other device latches. -/
def withLatches (s : State) (u v w : Word) : State := { s with dsl := u, dil := v, dol := w }

/-- Two states that differ at most in the device latches. -/
abbrev SameButLatches (s t : State) : Prop := withLatches s 0#16 0#16 0#16 = withLatches t 0#16 0#16 0#16

theorem withLatches_of_sameButLatches {s t : State} (h : SameButLatches s t) : t = withLatches s t.dsl t.dil t.dol :=
  (congrArg (fun x => withLatches x t.dsl t.dil t.dol) h.symm :)

theorem executeCell_withLatches (i : Instr) (p : Fin 8) (s : State) (u v w : Word) :
    SameButLatches (executeCell i p s) (executeCell i p (withLatches s u v w)) := by
  cases i with
  | jma a =>
    simp only [SameButLatches, executeCell]; unfold jmaCell; split
    · change withLatches (if isNegative s.a = true then _ else _) _ _ _ =
        withLatches (if isNegative s.a = true then _ else _) _ _ _
      split <;> rfl
    · rfl
  | _ => fin_cases p <;> rfl

theorem fetchCell_withLatches (p : Fin 8) (s : State) (u v w : Word) :
    SameButLatches (fetchCell p s) (fetchCell p (withLatches s u v w)) := by
  fin_cases p <;> rfl

theorem performPulse_withLatches (s : State) (u v w : Word) :
    SameButLatches (performPulse currentCell s) (performPulse currentCell (withLatches s u v w)) := by
  refine congrArg State.advance (?_ : SameButLatches (currentCell s.pulse s) (currentCell s.pulse (withLatches s u v w)))
  cases hphase : s.phase with
  | fetch =>
    simp only [currentCell, hphase, show (withLatches s u v w).phase = .fetch from hphase]
    exact fetchCell_withLatches s.pulse s u v w
  | execute =>
    simp only [currentCell, hphase, show (withLatches s u v w).phase = .execute from hphase]
    exact executeCell_withLatches (decodeWord s.ir) s.pulse s u v w

/-- A `StepPulse` carries the difference along, and answers the same status. -/
theorem stepPulse_sameButLatches {s t : State} (h : SameButLatches s t) :
    SameButLatches (stepPulse s).state (stepPulse t).state ∧ (stepPulse s).status = (stepPulse t).status := by
  rw [withLatches_of_sameButLatches h]
  generalize t.dsl = u, t.dil = v, t.dol = w
  by_cases hstop : s.power = false ∨ s.halted = true
  · rw [stepPulse_halted s hstop, stepPulse_halted (withLatches s u v w) hstop]
    exact ⟨rfl, rfl⟩
  simp only [not_or, Bool.not_eq_false, Bool.not_eq_true] at hstop
  obtain ⟨hpower, hhalted⟩ := hstop
  cases hfires : s.breakpointFires with
  | true =>
    rw [stepPulse_breakpoint s hpower hhalted hfires, stepPulse_breakpoint (withLatches s u v w) hpower hhalted hfires]
    exact ⟨rfl, rfl⟩
  | false =>
    by_cases hio : s.io = .idle
    · have hcan : s.canPulse = true := (canPulse_iff s).mpr ⟨hpower, hhalted, hio⟩
      have hsame := performPulse_withLatches s u v w
      rw [stepPulse_perform s hcan hfires, stepPulse_perform (withLatches s u v w) hcan hfires]
      exact ⟨hsame, (congrArg statusOf hsame :)⟩
    · rw [stepPulse_pending hpower hhalted hfires hio,
        stepPulse_pending (s := withLatches s u v w) hpower hhalted hfires hio]
      exact ⟨rfl, rfl⟩

theorem runCycleLoop_sameButLatches (n : Nat) (seen seen' : Bool) {s t : State} (h : SameButLatches s t) :
    SameButLatches (runCycleLoop n seen s).state (runCycleLoop n seen' t).state := by
  induction n generalizing seen seen' s t with
  | zero => exact h
  | succ n ih =>
    obtain ⟨hstate, hstatus⟩ := stepPulse_sameButLatches h
    have hboundary : (stepPulse s).state.atBoundary = (stepPulse t).state.atBoundary := (congrArg State.atBoundary hstate :)
    rw [runCycleLoop_succ, runCycleLoop_succ, hstatus, hboundary]
    split
    · exact hstate
    · exact ih _ _ hstate

/-- Settles O50: no cell reads the three latches, so a difference there stays there, pulse by pulse. -/
theorem deviceLatchesAreNotRead : Obligations.DeviceLatchesAreNotRead := fun s u v w hqueue =>
  ⟨_, _, stepIsRunCycle s hqueue, stepIsRunCycle (withLatches s u v w) hqueue,
    runCycleLoop_sameButLatches 16 false false (t := withLatches s u v w) rfl⟩

end Sys2Proof.Machine

namespace Sys2Proof.Machine

/-! ## Reset (R135, R136) -/

/-- Settles O54: the fields are those of the literal state, and the one closed cycle from it is computed. -/
theorem resetAndFirstCycle : Obligations.ResetAndFirstCycle :=
  ⟨fun _ => rfl, fun r => by cases r <;> rfl, fun _ => rfl, rfl, rfl, rfl, rfl, rfl, rfl, rfl, rfl, rfl, rfl, by decide⟩

/-! ## The register port (R80, R81) -/

theorem regOfSelector_of_large : ∀ sel : Fin 16, 10 ≤ sel.val → regOfSelector sel = none := by decide

/-- A write of a register leaves every field that is no register. -/
theorem writeReg_keeps (s : State) (r : Reg) (v : Word) :
    (s.writeReg r v).ram = s.ram ∧ (s.writeReg r v).phase = s.phase ∧ (s.writeReg r v).pulse = s.pulse ∧
    HandshakeKept s (s.writeReg r v) ∧ (s.writeReg r v).halted = s.halted ∧ (s.writeReg r v).ovf = s.ovf ∧
    DebugKept s (s.writeReg r v) := by
  cases r <;> exact ⟨rfl, rfl, rfl, ⟨rfl, rfl⟩, rfl, rfl, rfl, rfl, rfl, rfl⟩

/-- Settles O55: the table of selectors, and the read-after-write and the frame of a register write. -/
theorem registerPort : Obligations.RegisterPort := by
  refine ⟨rfl, fun sel v s hlarge => ?_, fun sel r v s hsel => ⟨?_, s.writeReg r v, ?_, readReg_writeReg_same s r v,
    fun q hq => readReg_writeReg_ne s r q v (by simpa using hq), writeReg_keeps s r v⟩⟩
  · have hnone := regOfSelector_of_large sel hlarge
    simp only [command, readRegister, writeRegister, hnone, and_self]
  · simp only [command, readRegister, hsel]
  · simp only [command, writeRegister, hsel]

/-! ## LoadProgram (R82) -/

/-- The addresses of a load: its words one after another from `n` on, and the rest of memory as before. -/
theorem read_load (n : Nat) (ws : List Word) (m : Memory) (hwf : Memory.wf m = true) (hfit : n + ws.length ≤ 4096)
    (x : Addr) :
    Memory.read (Memory.load n ws m) x = if n ≤ x.toNat then ws.getD (x.toNat - n) (Memory.read m x) else Memory.read m x := by
  induction ws generalizing n m with
  | nil => simp [Memory.load]
  | cons w ws ih =>
    rw [List.length_cons] at hfit
    have hn : (BitVec.ofNat 12 n).toNat = n := by
      rw [BitVec.toNat_ofNat]
      exact Nat.mod_eq_of_lt (by omega)
    rw [Memory.load, ih (n + 1) _ (write_wf m _ w hwf) (by omega)]
    rcases Nat.lt_trichotomy x.toNat n with hlt | heq | hgt
    · have hne : x ≠ BitVec.ofNat 12 n := fun h => by rw [h, hn] at hlt; omega
      rw [if_neg (by omega), if_neg (by omega), read_write_ne m _ x w hne]
    · have hx : x = BitVec.ofNat 12 n := BitVec.eq_of_toNat_eq (heq.trans hn.symm)
      rw [if_neg (by omega), if_pos (by omega), hx, read_write_same m _ w hwf, hn, Nat.sub_self, List.getD_cons_zero]
    · have hne : x ≠ BitVec.ofNat 12 n := fun h => by rw [h, hn] at hgt; omega
      obtain ⟨k, hk⟩ : ∃ k, x.toNat = n + 1 + k := ⟨x.toNat - (n + 1), by omega⟩
      rw [if_pos (by omega), if_pos (by omega), read_write_ne m _ x w hne, hk, Nat.add_sub_cancel_left,
        show n + 1 + k - n = k + 1 by omega, List.getD_cons_succ]

/-- Settles O56: the words of a load that fits, one after another from address 0 on. -/
theorem loadProgramPlacesTheWords : Obligations.LoadProgramPlacesTheWords := by
  refine fun words s hwf => ⟨fun hfit => ⟨Memory.load 0 words s.ram, ?_, fun i hi => ?_, fun x hx => ?_⟩, fun hlong => ?_⟩
  · exact if_pos hfit
  · have hx : (BitVec.ofNat 12 i).toNat = i := by
      rw [BitVec.toNat_ofNat]
      exact Nat.mod_eq_of_lt (by omega)
    rw [read_load 0 words s.ram hwf (by omega), if_pos (Nat.zero_le _), hx, Nat.sub_zero, List.getD_eq_getElem _ _ hi]
  · rw [read_load 0 words s.ram hwf (by omega), if_pos (Nat.zero_le _), Nat.sub_zero, List.getD_eq_default _ _ hx]
  · exact if_neg (Nat.not_le.mpr hlong)

/-! ## Inspection (R83, R85) -/

/-- Settles O57: `DumpMemory` reads the addresses in order, and the three commands answer with the state as it is. -/
theorem inspectionChangesNothing : Obligations.InspectionChangesNothing := by
  refine fun s => ⟨?_, fun n hn => ?_, rfl, fun _ => rfl, rfl⟩
  · rw [dumpMemory, List.length_map, List.length_range, Config.memWords]
  · rw [dumpMemory, List.getElem?_map, Config.memWords, List.getElem?_range hn, Option.map_some]

/-! ## Breakpoints (R130, R131) -/

/-- Adding an address that is in a canonical set already changes nothing (D32). -/
theorem insertBreakpoint_of_mem {x : Addr} {l : List Addr} (hwf : breakpointsWf l = true) (hmem : x ∈ l) :
    insertBreakpoint x l = l := by
  induction l with
  | nil => cases hmem
  | cons b l ih =>
    simp only [breakpointsWf, decide_eq_true_eq, List.pairwise_cons] at hwf ih
    obtain ⟨hbelow, hrest⟩ := hwf
    obtain rfl | hlater := List.mem_cons.mp hmem
    · rw [insertBreakpoint, if_neg (Nat.lt_irrefl _), if_pos rfl]
    · have hlt := hbelow x hlater
      rw [insertBreakpoint, if_neg (by omega), if_neg (fun h => by rw [h] at hlt; omega), ih hrest hlater]

/-- Settles O58: the set after `SetBreakpoint` is the one with the address inserted. -/
theorem breakpointCommands : Obligations.BreakpointCommands := by
  refine ⟨fun n s hn => ⟨insertBreakpoint (BitVec.ofNat 12 n) s.bp, ?_, fun x => ?_, insertBreakpoint_of_mem⟩,
    fun n s hn => ?_, fun _ => rfl⟩
  · exact if_pos (Nat.lt_succ_of_le hn)
  · have hx : x = BitVec.ofNat 12 n ↔ x.toNat = n := by
      rw [← BitVec.toNat_inj, BitVec.toNat_ofNat, Nat.mod_eq_of_lt (show n < 2 ^ 12 by omega)]
    rw [mem_insertBreakpoint, hx]
  · exact if_neg (Nat.not_lt.mpr hn)

/-! ## Resume (R84) -/

/-- Settles O59: a halted engine stands at a boundary with nothing pending, so with `halted` clear it is ready to fetch. -/
theorem resumeEndsTheHalt : Obligations.ResumeEndsTheHalt := by
  have hresume (s : State) (hpower : s.power = true) : command .resume s = ({ s with halted := false }, .ok) :=
    congrArg (·, Response.ok) (if_pos hpower)
  refine ⟨hresume, fun s i hinv hpower hhalted hquiet hqueue hword => ?_⟩
  rw [hresume s hpower] at hquiet ⊢
  have ⟨_, _, hboundary, _⟩ := hinv
  obtain ⟨hphase, hpulse⟩ := hboundary hhalted
  have hio : s.io = .idle := by_contra fun hpending => by
    rw [hinv.not_halted_of_pending hpending] at hhalted
    cases hhalted
  exact stepRunsTheDecodedInstruction.1 i { s with halted := false } ⟨hpower, rfl, hio, hphase, hpulse, hquiet⟩ hqueue hword

end Sys2Proof.Machine

namespace Sys2Proof.Machine

/-! ## Counting the pulses of a cycle (R142) -/

/-- The state after one `StepPulse`. -/
abbrev pulsed : State → State := fun x => (stepPulse x).state

theorem pulsed_of_performs {s : State} (hs : s.Performs) : pulsed s = performPulse currentCell s :=
  congrArg PulseResult.state (stepPulse_of_performs hs)

/-- What is left of the Fetch phase is one pulse and what is left after it. -/
theorem fetchPhase_perform {s : State} (hcan : s.canPulse = true) (hphase : s.phase = .fetch) :
    fetchPhase (performPulse fetchCell s) = fetchPhase s := by
  rw [fetchPhase, fetchPhase, Config.pulsesPerPhase]
  exact (runPhase_perform fetchCell_ignoresPosition hphase hcan).symm

/-- The instruction of the cycle: what IR holds when the Fetch phase is done. -/
def cycleInstr (s : State) : Instr := decodeWord (fetchPhase s).ir

theorem cycleInstr_of_ready {s : State} (hs : s.ReadyToFetch) : cycleInstr s = decodeWord (Memory.read s.ram s.pcAddr) := by
  rw [cycleInstr, fetchPhase_of_ready hs]

theorem cycleInstr_of_execute {s : State} (hphase : s.phase = .execute) : cycleInstr s = decodeWord s.ir := by
  rw [cycleInstr, fetchPhase_of_execute hphase]

/-- A performed pulse that neither ends the cycle nor is the stop of its instruction: the cycle goes on, one tick later. -/
theorem tick {s : State} (hs : s.Performs) (hlast : clock s < 15)
    (hstop : ∀ p, stopPulse (cycleInstr s) = some p → clock s ≠ 8 + p.val) :
    (pulsed s).canPulse = true ∧ clock (pulsed s) = clock s + 1 ∧ cycleInstr (pulsed s) = cycleInstr s := by
  have hclock : clock (performPulse currentCell s) = clock s + 1 := by rw [clock_performPulse, if_neg (by omega)]
  rw [pulsed_of_performs hs]
  refine ⟨?_, hclock, ?_⟩
  · cases hphase : s.phase with
    | fetch => rw [performPulse_of_fetch hphase, performPulse_fetchCell_canPulse, hs.1]
    | execute =>
      have hgate : stopPulse (decodeWord s.ir) ≠ some s.pulse := fun h =>
        hstop s.pulse (by rwa [cycleInstr_of_execute hphase]) (clock_of_execute hphase)
      rw [performPulse_of_execute hphase, performPulse, advance_canPulse, executeCell_canPulse hgate, hs.1]
  · cases hphase : s.phase with
    | fetch =>
      rw [performPulse_of_fetch hphase, cycleInstr, cycleInstr, fetchPhase_perform hs.1 hphase]
    | execute =>
      have hnext : (performPulse currentCell s).phase = .execute := by
        have hne : s.pulse ≠ 7 := fun h => by rw [clock_of_execute hphase, h] at hlast; exact absurd hlast (by decide)
        rw [performPulse_currentCell_phase, if_neg hne, hphase]
      rw [cycleInstr_of_execute hphase, cycleInstr_of_execute hnext, performPulse_ir_of_execute hphase]

/-- `k` such pulses: the cycle goes on, `k` ticks later, and `RunCycle` from there ends the same. -/
theorem iterate_tick {s : State} (hs : s.Performs) (k : Nat) (hk : clock s + k < 16)
    (hstop : ∀ p, stopPulse (cycleInstr s) = some p → 8 + p.val < clock s ∨ clock s + k ≤ 8 + p.val) :
    (pulsed^[k] s).Performs ∧ clock (pulsed^[k] s) = clock s + k ∧ cycleInstr (pulsed^[k] s) = cycleInstr s ∧
    (runCycle (pulsed^[k] s)).state = (runCycle s).state ∧ (runCycle (pulsed^[k] s)).status = (runCycle s).status := by
  induction k with
  | zero => exact ⟨hs, rfl, rfl, rfl, rfl⟩
  | succ k ih =>
    obtain ⟨hperf, hclock, hinstr, hstate, hstatus⟩ := ih (by omega) fun p hp => (hstop p hp).imp_right (by omega)
    obtain ⟨hcan, hnext, hsame⟩ := tick hperf (by omega) fun p hp => by
      have := hstop p (hinstr ▸ hp)
      omega
    rw [Function.iterate_succ_apply']
    have hmid : (pulsed (pulsed^[k] s)).atBoundary = false := by
      rw [Bool.eq_false_iff, Ne, atBoundary_iff_clock]
      omega
    have hgoes : runCycle (pulsed^[k] s) = _ := runCycle_of_not_last (by
      rw [stepPulse_of_performs hperf, ← pulsed_of_performs hperf, hmid, statusOf_of_canPulse hcan]
      simp)
    rw [hgoes] at hstate hstatus
    exact ⟨performs_of_not_boundary hcan hmid, by omega, hsame.trans hinstr, hstate, hstatus⟩

/-- No pulse of a cycle but its last reaches a boundary. -/
theorem iterate_tick_not_boundary {s : State} (hs : s.Performs) (k : Nat) (hk : clock s + k < 16) (hpos : 0 < clock s + k)
    (hstop : ∀ p, stopPulse (cycleInstr s) = some p → 8 + p.val < clock s ∨ clock s + k ≤ 8 + p.val) :
    (pulsed^[k] s).atBoundary = false := by
  obtain ⟨_, hclock, _⟩ := iterate_tick hs k hk hstop
  rw [Bool.eq_false_iff, Ne, atBoundary_iff_clock]
  omega

/-- Where no stop of the instruction but that of HLT is still to come, the `n` pulses up to tick 16 are `RunCycle`, and only
the last of them reaches a boundary. -/
theorem pulses_to_boundary {s : State} (hs : s.Performs) {n : Nat} (hn : clock s + n = 16)
    (hstop : ∀ p, stopPulse (cycleInstr s) = some p → 8 + p.val < clock s ∨ p = 7) :
    pulsed^[n] s = (runCycle s).state ∧ (pulsed^[n] s).atBoundary = true ∧
    ∀ k, 0 < clock s + k → k < n → (pulsed^[k] s).atBoundary = false := by
  have hstop' (k : Nat) (hk : k < n) (p : Fin 8) (hp : stopPulse (cycleInstr s) = some p) :
      8 + p.val < clock s ∨ clock s + k ≤ 8 + p.val := by
    obtain h | rfl := hstop p hp
    · exact .inl h
    · exact .inr (show clock s + k ≤ 15 by omega)
  obtain ⟨m, rfl⟩ : ∃ m, n = m + 1 := ⟨n - 1, by have := clock_lt s; omega⟩
  obtain ⟨hperf, hclock, _, hstate, _⟩ := iterate_tick hs m (by omega) (hstop' m (Nat.lt_succ_self m))
  have hend : (pulsed (pulsed^[m] s)).atBoundary = true := by
    rw [atBoundary_iff_clock, pulsed_of_performs hperf, clock_performPulse, if_pos (by omega)]
  rw [Function.iterate_succ_apply']
  refine ⟨?_, hend, fun k hpos hk => iterate_tick_not_boundary hs k (by omega) hpos (hstop' k hk)⟩
  rw [← hstate, runCycle_of_last (.inr hend)]

/-- The stop of an instruction is the last pulse of its `RunCycle` (R77). -/
theorem last_pulse_of_stop {s : State} (hs : s.Performs) {p : Fin 8} (hstop : stopPulse (cycleInstr s) = some p)
    (hclock : clock s = 8 + p.val) : (runCycle s).state = performPulse currentCell s := by
  have hphase : s.phase = .execute := by
    cases hphase : s.phase with
    | fetch => have := clock_of_fetch hphase; have := s.pulse.isLt; omega
    | execute => rfl
  have hpulse : s.pulse = p := Fin.ext (by have := clock_of_execute hphase; omega)
  rw [cycleInstr_of_execute hphase, ← hpulse] at hstop
  rw [runCycle_of_last_execute_pulse (.of_gate hphase hs.1)]
  intro hgoes
  have hcan := hgoes.canPulse
  rw [performPulse_of_execute hphase, performPulse, advance_canPulse, executeCell_stop_canPulse hstop] at hcan
  cases hcan

/-- Where the stop of the instruction is still to come, the pulses up to it are `RunCycle`, and none reaches a boundary. -/
theorem pulses_to_hold {s : State} (hs : s.Performs) {n : Nat} {p : Fin 8} (hstop : stopPulse (cycleInstr s) = some p)
    (hn : clock s + n = 8 + p.val) (hp : p ≠ 7) :
    pulsed^[n + 1] s = (runCycle s).state ∧
    ∀ k, 0 < clock s + k → k ≤ n + 1 → (pulsed^[k] s).atBoundary = false := by
  have hval : p.val < 7 := by
    have := p.isLt
    have : p.val ≠ 7 := fun h => hp (Fin.ext h)
    omega
  have hstop' (k : Nat) (hk : k ≤ n) (q : Fin 8) (hq : stopPulse (cycleInstr s) = some q) :
      8 + q.val < clock s ∨ clock s + k ≤ 8 + q.val := by
    obtain rfl : p = q := Option.some.inj (hstop.symm.trans hq)
    exact .inr (by omega)
  obtain ⟨hperf, hclock, hinstr, hstate, _⟩ := iterate_tick hs n (by omega) (hstop' n le_rfl)
  have hend := last_pulse_of_stop hperf (hinstr ▸ hstop) (hclock.trans hn)
  have hnext : pulsed^[n + 1] s = performPulse currentCell (pulsed^[n] s) := by
    rw [Function.iterate_succ_apply', pulsed_of_performs hperf]
  refine ⟨hnext.trans (hend.symm.trans hstate), fun k hpos hk => ?_⟩
  obtain hlt | rfl := Nat.lt_or_eq_of_le hk
  · exact iterate_tick_not_boundary hs k (by omega) hpos (hstop' k (by omega))
  · rw [hnext, Bool.eq_false_iff, Ne, atBoundary_iff_clock, clock_performPulse, if_neg (by omega)]
    omega

theorem cycleInstr_of_opcode {s : State} {op : BitVec 4} (hs : s.ReadyToFetch)
    (hop : opcodeField (Memory.read s.ram s.pcAddr) = op) :
    cycleInstr s = (opcodeMap.get op.toFin).instr (addressField (Memory.read s.ram s.pcAddr)) := by
  rw [cycleInstr_of_ready hs, decodeWord_of_opcode hop]

theorem clock_of_ready {s : State} (hs : s.ReadyToFetch) : clock s = 0 := by
  obtain ⟨_, _, _, hphase, hpulse, _⟩ := hs
  rw [clock_of_fetch hphase, hpulse]
  rfl

/-- Of all instructions but INP and OUT the only stop is that of HLT, which is the last pulse of the cycle. -/
theorem stopPulse_of_opcode {w : Word} {p : Fin 8} (hinp : opcodeField w ≠ 11#4) (hout : opcodeField w ≠ 12#4)
    (hstop : stopPulse (decodeWord w) = some p) : p = 7 := by
  cases hdecode : decodeWord w with
  | hlt a => rw [hdecode] at hstop; exact (Option.some.inj hstop).symm
  | inp a => exact absurd ((opcodeField_of_decodeWord hdecode).trans (opcodeField_packWord _ a)) hinp
  | out a => exact absurd ((opcodeField_of_decodeWord hdecode).trans (opcodeField_packWord _ a)) hout
  | _ => rw [hdecode] at hstop; cases hstop

/-- After a completion the pulses up to E7 are `RunCycle`, with status `Continuing`, and only the last of them reaches a
boundary: the stop of the instruction is past. -/
theorem pulses_after_completion {u t : State} (hu : u.Executing) {n : Nat} (hn : u.pulse.val + n = 8)
    (hstop : ∀ p, stopPulse (decodeWord u.ir) = some p → p < u.pulse)
    (hexec : exec (decodeWord u.ir) u = .next t) (hrest : statusOf t = .continuing) :
    pulsed^[n] u = (runCycle u).state ∧ (runCycle u).status = .continuing ∧ (pulsed^[n] u).atBoundary = true ∧
    ∀ k, k < n → (pulsed^[k] u).atBoundary = false := by
  have hclock := clock_of_execute hu.phase
  obtain ⟨hstate, hend, hmid⟩ := pulses_to_boundary (n := n) hu.performs (by omega) fun p hp => by
    rw [cycleInstr_of_execute hu.phase] at hp
    have := Fin.lt_def.mp (hstop p hp)
    exact .inl (by omega)
  exact ⟨hstate, by rw [runCycle_of_executing hu hexec]; exact hrest, hend, fun k hk => hmid k (by omega) hk⟩

/-- The boundary that an Execute phase reaches with nothing halted or pending is no stop (R76). -/
theorem statusOf_toBoundary {u : State} (hu : u.Executing) : statusOf u.toBoundary = .continuing :=
  statusOf_of_canPulse ((setPosition_canPulse u .fetch 0).trans hu.canPulse)

theorem pulses_after_completeInput {u : State} {a : Addr} (hu : u.Executing) (hpulse : u.pulse = 1)
    (hinstr : decodeWord u.ir = .inp a) :
    pulsed^[7] u = (runCycle u).state ∧ (runCycle u).status = .continuing ∧ (pulsed^[7] u).atBoundary = true ∧
    ∀ k, k < 7 → (pulsed^[k] u).atBoundary = false := by
  have hexec : exec (decodeWord u.ir) u = .next u.toBoundary := by
    rw [hinstr, exec_inp a hu, if_neg (by rw [hpulse]; decide)]
  refine pulses_after_completion hu (by rw [hpulse]; rfl) (fun p hp => ?_) hexec (statusOf_toBoundary hu)
  rw [hinstr] at hp
  rw [hpulse, ← Option.some.inj hp]
  decide

theorem pulses_after_completeOutput {u : State} {a : Addr} (hu : u.Executing) (hpulse : u.pulse = 2)
    (hinstr : decodeWord u.ir = .out a) :
    pulsed^[6] u = (runCycle u).state ∧ (runCycle u).status = .continuing ∧ (pulsed^[6] u).atBoundary = true ∧
    ∀ k, k < 6 → (pulsed^[k] u).atBoundary = false := by
  have hexec : exec (decodeWord u.ir) u = .next u.toBoundary := by
    rw [hinstr, exec_out a hu, if_neg (by rw [hpulse]; decide), if_neg (by rw [hpulse]; decide)]
  refine pulses_after_completion hu (by rw [hpulse]; rfl) (fun p hp => ?_) hexec (statusOf_toBoundary hu)
  rw [hinstr] at hp
  rw [hpulse, ← Option.some.inj hp]
  decide

/-- Settles O21: sixteen ticks from a boundary; INP stops at tick 9 and OUT at tick 10, and their completions leave seven and
six ticks. -/
theorem sixteenPulsesPerInstruction : Obligations.SixteenPulsesPerInstruction := by
  intro s hs
  have hclock := clock_of_ready hs
  have hexecuting := fetchPhase_executing_of_performs hs.performs
  have hzero : (fetchPhase s).pulse = 0 := by rw [fetchPhase_of_ready hs]; rfl
  have ⟨hpower, hhalted, _⟩ := hexecuting
  refine ⟨fun hinp hout => ?_, fun hop => ?_, fun hop => ?_⟩
  · obtain ⟨hstate, hend, hmid⟩ := pulses_to_boundary (n := 16) hs.performs (by omega) fun p hp =>
      .inr (stopPulse_of_opcode hinp hout (cycleInstr_of_ready hs ▸ hp))
    exact ⟨hstate, hend, fun k hpos hk => hmid k (by omega) hk⟩
  · have hinstr : cycleInstr s = .inp (addressField (Memory.read s.ram s.pcAddr)) := cycleInstr_of_opcode hs hop
    obtain ⟨hstate, hmid⟩ := pulses_to_hold (n := 8) (p := 0) hs.performs (by rw [hinstr]; rfl) (by rw [hclock]; rfl)
      (by decide)
    have hexec := exec_inp (addressField (Memory.read s.ram s.pcAddr)) hexecuting
    rw [if_pos hzero] at hexec
    rw [hstate, runCycle_of_performs hs.performs (by rw [← cycleInstr, hinstr]; exact hexec)]
    refine ⟨rfl, statusOf_awaitIn hhalted rfl, rfl, rfl, fun k hpos hk => hmid k (by omega) hk, fun b => ?_⟩
    exact ⟨_, (command_completeInput b _).trans (if_pos ⟨hpower, rfl⟩),
      pulses_after_completeInput ⟨hpower, hhalted, rfl, rfl⟩ rfl hinstr⟩
  · have hinstr : cycleInstr s = .out (addressField (Memory.read s.ram s.pcAddr)) := cycleInstr_of_opcode hs hop
    obtain ⟨hstate, hmid⟩ := pulses_to_hold (n := 9) (p := 1) hs.performs (by rw [hinstr]; rfl) (by rw [hclock]; rfl)
      (by decide)
    have hexec := exec_out (addressField (Memory.read s.ram s.pcAddr)) hexecuting
    rw [if_pos hzero] at hexec
    rw [hstate, runCycle_of_performs hs.performs (by rw [← cycleInstr, hinstr]; exact hexec)]
    refine ⟨rfl, statusOf_awaitOut hhalted rfl, rfl, rfl, fun k hpos hk => hmid k (by omega) hk, ?_⟩
    exact ⟨_, (command_completeOutput _).trans (if_pos ⟨hpower, rfl⟩),
      pulses_after_completeOutput ⟨hpower, hhalted, rfl, rfl⟩ rfl hinstr⟩

end Sys2Proof.Machine
